-- ==== Sys2Proof/Word.lean ====
section
/-! DEFINITION. The bit-vector types of the ZENITH CORE (spec 00_scope.md R6): bytes, 16-bit words and the fields of an
instruction word (30_encoding.md R61). -/

namespace Sys2Proof

/-- One byte of memory (R40). -/
abbrev Byte := BitVec 8

/-- A 16-bit unsigned word: a register's contents, an address, an instruction word (R21, R24, R60). -/
abbrev Word := BitVec 16

/-- The opcode field `w[15:12]` (R61). -/
abbrev Opcode := BitVec 4

/-- The data field `w[9:0]`, read as an unsigned number of 0 to 1023 where it is an immediate (R61, R63). -/
abbrev Imm := BitVec 10

end Sys2Proof
end

