-- ==== Sys2Proof/Config.lean ====
section
/-! DEFINITION. What is fixed for the machine (spec 00_scope.md R6), and the two parameters the spec leaves OPEN. -/

namespace Sys2Proof

/-- MEM_BYTES (R6, R40). -/
def Config.memBytes : Nat := 65536

/-- The most instructions an image can hold: two bytes each, in 65536 bytes (30_encoding.md R87). -/
def Config.maxInstructions : Nat := 32768

/-- Why a core has halted: exactly the reasons of 60_exceptions.md R201. It is an abstract enumeration (D11). -/
inductive HaltReason where
  /-- HLT executed (R160). -/
  | hlt
  /-- A reserved opcode was fetched; `code` is the value of its `op` field (R73). -/
  | unknownOpcode (code : Opcode)
  /-- A step started with `pc >= 0xFFFE` (R44). -/
  | addressOutOfRange
  deriving DecidableEq, Repr

/-- CYCLES_PER_STEP, left OPEN by R6 and R246: no rule, and nothing in this model, reads it (log 13). -/
opaque Config.cyclesPerStep : Nat

/-- HALT_REASON_ENCODING, left OPEN by R6 and D11: no rule, and nothing in this model, reads it (log 13). -/
opaque Config.haltReasonEncoding : HaltReason → Nat

end Sys2Proof
end

