-- ==== Sys2Proof/Syntax.lean ====
section
/-! DEFINITION. The instructions: one constructor for each row of spec/opcode_table.json, the two reserved codes among
them (30_encoding.md R66, R67). -/

namespace Sys2Proof

/-- The four general registers, R0 to R3 (10_state.md R21); a 2-bit index reaches exactly these (R22). -/
inductive Reg where
  | r0 | r1 | r2 | r3
  deriving DecidableEq, Repr

/-- One instruction. Unused fields are not part of it: they are ignored (R64, R65; log 9). -/
inductive Instr where
  /-- 0x0, R160. -/
  | hlt
  /-- 0x1, R100. -/
  | ldi (rd : Reg) (imm : Imm)
  /-- 0x2, R101. -/
  | add (rd rs : Reg)
  /-- 0x3, R121. -/
  | cmp (rd rs : Reg)
  /-- 0x5, R102. -/
  | sub (rd rs : Reg)
  /-- 0x6, R141. -/
  | jmp (imm : Imm)
  /-- 0x7, R142. -/
  | jz (imm : Imm)
  /-- 0x8, R143. -/
  | jnz (imm : Imm)
  /-- 0x9, R161. -/
  | inp (rd : Reg)
  /-- 0xA, R122. -/
  | grt (rd rs : Reg)
  /-- 0xB, R123. -/
  | gre (rd rs : Reg)
  /-- 0xC, R124. -/
  | les (rd rs : Reg)
  /-- 0xD, R125. -/
  | lee (rd rs : Reg)
  /-- 0xE, R162. -/
  | out (rd : Reg)
  /-- 0x4, reserved (R67, R73). -/
  | reserved4
  /-- 0xF, reserved (R67, R73). -/
  | reservedF
  deriving DecidableEq, Repr

end Sys2Proof
end

