-- ==== Sys2Proof/WellFormed.lean ====
section
/-! DEFINITION. Which terms are well formed. The operand types already bound every operand (a register is one of four, an
immediate has ten bits), so what is left to check is that an instruction is one of the fourteen assigned ones
(30_encoding.md R66, R67) and that an image fits the memory (R87). -/

namespace Sys2Proof

/-- The instruction is one of the fourteen assigned ones, the ones the assembler has a mnemonic for: "These are the only
illegal encodings" (R67) says of the two others, which still have a meaning (R73) and a word. -/
def Instr.wf : Instr → Bool
  | .hlt => true
  | .ldi _ _ => true
  | .add _ _ => true
  | .cmp _ _ => true
  | .sub _ _ => true
  | .jmp _ => true
  | .jz _ => true
  | .jnz _ => true
  | .inp _ => true
  | .grt _ _ => true
  | .gre _ _ => true
  | .les _ _ => true
  | .lee _ _ => true
  | .out _ => true
  | .reserved4 => false
  | .reservedF => false

/-- The image fits the 65536 bytes of memory, two bytes an instruction (R87). -/
def imageWf (image : List Word) : Bool := decide (image.length ≤ Config.maxInstructions)

end Sys2Proof
end

