-- ==== Sys2Proof/Decode.lean ====
section
/-! DEFINITION. The instruction word's fields, the opcode table, the decoder and the encoder (spec 30_encoding.md R60 to
R68, R85). -/

namespace Sys2Proof

/-! ### Fields (R61, R64) -/

/-- `op = w[15:12]` (R61). -/
def opcodeField (w : Word) : Opcode := w.extractLsb' 12 4

/-- `w[11:10]` (R61). -/
def registerField (w : Word) : BitVec 2 := w.extractLsb' 10 2

/-- `d = w[9:0]` (R61). -/
def dataField (w : Word) : Imm := w.extractLsb' 0 10

/-- `d[1:0]`, the second register's index in format RR (R64). -/
def secondField (w : Word) : BitVec 2 := w.extractLsb' 0 2

/-- The register a 2-bit index names (R21, R22). -/
def Reg.ofBits (b : BitVec 2) : Reg :=
  if b = 0 then .r0 else if b = 1 then .r1 else if b = 2 then .r2 else .r3

/-- The number of a register (R21). -/
def Reg.index : Reg → Nat
  | .r0 => 0
  | .r1 => 1
  | .r2 => 2
  | .r3 => 3

/-- `rd`, the register of the register field. -/
def rdField (w : Word) : Reg := Reg.ofBits (registerField w)

/-- `rs`, the register of the low two bits of the data field (R64). -/
def rsField (w : Word) : Reg := Reg.ofBits (secondField w)

/-! ### The decoder -/

/-- The instruction a word stands for: total, chosen by `w[15:12]` alone (R66, R67, R68). -/
def decode (w : Word) : Instr :=
  let op := opcodeField w
  if op = 0x0 then .hlt
  else if op = 0x1 then .ldi (rdField w) (dataField w)
  else if op = 0x2 then .add (rdField w) (rsField w)
  else if op = 0x3 then .cmp (rdField w) (rsField w)
  else if op = 0x4 then .reserved4
  else if op = 0x5 then .sub (rdField w) (rsField w)
  else if op = 0x6 then .jmp (dataField w)
  else if op = 0x7 then .jz (dataField w)
  else if op = 0x8 then .jnz (dataField w)
  else if op = 0x9 then .inp (rdField w)
  else if op = 0xA then .grt (rdField w) (rsField w)
  else if op = 0xB then .gre (rdField w) (rsField w)
  else if op = 0xC then .les (rdField w) (rsField w)
  else if op = 0xD then .lee (rdField w) (rsField w)
  else if op = 0xE then .out (rdField w)
  else .reservedF

/-- The word two bytes make, the high byte first (20_memory.md R42). -/
def wordOfBytes (high low : Byte) : Word := high ++ low

/-- `w[15:8]`, the byte at the lower address (R42). -/
def highByte (w : Word) : Byte := w.extractLsb' 8 8

/-- `w[7:0]`, the byte at the higher address (R42). -/
def lowByte (w : Word) : Byte := w.extractLsb' 0 8

/-- Why a list of bytes holds no instruction. Raised by `decodeBytes` alone; safe: no instruction is made up. -/
inductive DecodeError where
  /-- Fewer than the two bytes every instruction has (R60). -/
  | truncated
  deriving DecidableEq, Repr

/-- Read one instruction from a list of bytes, in the order they lie in memory, and give it with the bytes after it. -/
def decodeBytes : List Byte → Except DecodeError (Instr × List Byte)
  | high :: low :: rest => .ok (decode (wordOfBytes high low), rest)
  | [_] => .error .truncated
  | [] => .error .truncated

/-- The bytes of a word as they lie in memory (R42). -/
def bytesOfWord (w : Word) : List Byte := [highByte w, lowByte w]

/-- The instruction the decoder reads from the bits `w` of a row of `nbits` bits, every bit above them 0. -/
def decodeTableWord (nbits w : Nat) : Option Instr :=
  match decodeBytes (bytesOfWord (BitVec.ofNat 16 (w % 2 ^ nbits))) with
  | .ok (i, _) => some i
  | .error _ => none

/-! ### The encoder -/

/-- `encode(op, reg, data)` of R61: each argument is masked to its field first (R68). -/
def encodeWord (op reg data : Nat) : Word :=
  BitVec.ofNat 16 (((op &&& 0xF) <<< 12) ||| ((reg &&& 0x3) <<< 10) ||| (data &&& 0x3FF))

/-- The opcode of an instruction (R66). -/
def Instr.opcode : Instr → Opcode
  | .hlt => 0x0
  | .ldi _ _ => 0x1
  | .add _ _ => 0x2
  | .cmp _ _ => 0x3
  | .sub _ _ => 0x5
  | .jmp _ => 0x6
  | .jz _ => 0x7
  | .jnz _ => 0x8
  | .inp _ => 0x9
  | .grt _ _ => 0xA
  | .gre _ _ => 0xB
  | .les _ _ => 0xC
  | .lee _ _ => 0xD
  | .out _ => 0xE
  | .reserved4 => 0x4
  | .reservedF => 0xF

/-- The word of an instruction, unused fields zero (R85). The reserved codes have no assembler form (R89); theirs is the
word with the other twelve bits zero. -/
def encode : Instr → Word
  | .hlt => encodeWord 0x0 0 0
  | .ldi rd imm => encodeWord 0x1 rd.index imm.toNat
  | .add rd rs => encodeWord 0x2 rd.index rs.index
  | .cmp rd rs => encodeWord 0x3 rd.index rs.index
  | .sub rd rs => encodeWord 0x5 rd.index rs.index
  | .jmp imm => encodeWord 0x6 0 imm.toNat
  | .jz imm => encodeWord 0x7 0 imm.toNat
  | .jnz imm => encodeWord 0x8 0 imm.toNat
  | .inp rd => encodeWord 0x9 rd.index 0
  | .grt rd rs => encodeWord 0xA rd.index rs.index
  | .gre rd rs => encodeWord 0xB rd.index rs.index
  | .les rd rs => encodeWord 0xC rd.index rs.index
  | .lee rd rs => encodeWord 0xD rd.index rs.index
  | .out rd => encodeWord 0xE rd.index 0
  | .reserved4 => encodeWord 0x4 0 0
  | .reservedF => encodeWord 0xF 0 0

/-- The bytes of an instruction as they lie in memory. -/
def encodeBytes (i : Instr) : List Byte := bytesOfWord (encode i)

/-! ### The opcode table (R66 and spec/opcode_table.json) -/

/-- The five formats of R62, and the reserved codes' want of one. -/
inductive Format where
  | n | ri | rr | j | r | reserved
  deriving DecidableEq, Repr

/-- The bits of the word a format leaves unused: ignored by the decoder (R64, R65), zero from the encoder (R85). -/
def Format.unusedBits : Format → Word
  | .n => 0x0FFF
  | .ri => 0x0000
  | .rr => 0x03FC
  | .j => 0x0C00
  | .r => 0x03FF
  | .reserved => 0x0FFF

/-- One row of the opcode table. -/
structure OpcodeRow where
  mnemonic : String
  format : Format
  pattern : Word
  mask : Word
  deriving DecidableEq, Repr

/-- The table of R66, as spec/opcode_table.json writes it. -/
def opcodeTable : List OpcodeRow :=
  [ ⟨"HLT", .n, 0x0000, 0xF000⟩,
    ⟨"LDI", .ri, 0x1000, 0xF000⟩,
    ⟨"ADD", .rr, 0x2000, 0xF000⟩,
    ⟨"CMP", .rr, 0x3000, 0xF000⟩,
    ⟨"SUB", .rr, 0x5000, 0xF000⟩,
    ⟨"JMP", .j, 0x6000, 0xF000⟩,
    ⟨"JZ", .j, 0x7000, 0xF000⟩,
    ⟨"JNZ", .j, 0x8000, 0xF000⟩,
    ⟨"INP", .r, 0x9000, 0xF000⟩,
    ⟨"GRT", .rr, 0xA000, 0xF000⟩,
    ⟨"GRE", .rr, 0xB000, 0xF000⟩,
    ⟨"LES", .rr, 0xC000, 0xF000⟩,
    ⟨"LEE", .rr, 0xD000, 0xF000⟩,
    ⟨"OUT", .r, 0xE000, 0xF000⟩,
    ⟨"reserved_0x4", .reserved, 0x4000, 0xF000⟩,
    ⟨"reserved_0xF", .reserved, 0xF000, 0xF000⟩ ]

/-- The word is one the row's mask and pattern select. -/
def OpcodeRow.matches (row : OpcodeRow) (w : Word) : Bool := w &&& row.mask == row.pattern

/-- The mnemonic of an instruction, as spec/opcode_table.json spells it. -/
def Instr.mnemonic : Instr → String
  | .hlt => "HLT"
  | .ldi _ _ => "LDI"
  | .add _ _ => "ADD"
  | .cmp _ _ => "CMP"
  | .sub _ _ => "SUB"
  | .jmp _ => "JMP"
  | .jz _ => "JZ"
  | .jnz _ => "JNZ"
  | .inp _ => "INP"
  | .grt _ _ => "GRT"
  | .gre _ _ => "GRE"
  | .les _ _ => "LES"
  | .lee _ _ => "LEE"
  | .out _ => "OUT"
  | .reserved4 => "reserved_0x4"
  | .reservedF => "reserved_0xF"

end Sys2Proof
end

