-- ==== Sys2Proof/Machine/State.lean ====
section
/-! DEFINITION. The state of the core (spec 10_state.md R20 to R32), the channel state of a run (20_memory.md R56, R57;
70_reset_and_hazards.md R247), the reasons a step can stop, and the state after reset (R32, R240). -/

namespace Sys2Proof.Machine

/-- Memory: (address, byte) pairs in one canonical form (`Memory.wf`, Machine/Ops.lean), addresses strictly rising and no
entry equal to what an unlisted address reads as. -/
abbrev Memory := List Host.Cell

/-- The four general registers (R21). -/
structure RegFile where
  r0 : Word
  r1 : Word
  r2 : Word
  r3 : Word
  deriving DecidableEq, Repr

/-- The run state (R28). `Halted` is terminal. -/
inductive Run where
  | running
  | halted (reason : HaltReason)
  deriving DecidableEq, Repr

/-- One answer of the input channel (20_memory.md R56). -/
inductive InputAnswer where
  /-- The host parsed the integer `v` from one line of input. -/
  | value (v : Int)
  /-- The host could not parse the line (60_exceptions.md R202). -/
  | parseFailure
  deriving DecidableEq, Repr

/-- Everything the spec gives the machine. -/
structure State where
  /-- `mem` (R40). -/
  mem : Memory
  /-- `x[0..3]` (R21). -/
  regs : RegFile
  /-- `pc`, the IP (R24). -/
  pc : Word
  /-- `Z` (R27). -/
  z : Bool
  /-- `run` (R28). -/
  run : Run
  /-- An INP has begun its step and waits for the host's answer (R31, R32; log 1). -/
  inputWait : Bool
  /-- The answers the host has given and no INP has consumed, oldest first (R56, D18; log 2). -/
  input : List InputAnswer
  /-- How many answers the program has consumed (R247; log 3). -/
  inputTaken : Nat
  /-- The values OUT has sent, oldest first (R57, R247; log 3). -/
  output : List Word
  deriving DecidableEq, Repr

/-- Why the machine stops with a fault. The core's own errors are no faults: each halts the core, which is a next state
(60_exceptions.md R200). -/
inductive Fault where
  /-- An access to an address outside the 65536 bytes of memory (R40; log 11). Raised by `Memory.readByte` and
  `Memory.writeByte`, so by the load interface alone: the fetch bound (R44) keeps every step from it. Safe. -/
  | noSuchAddress (address : Nat)
  deriving DecidableEq, Repr

/-- Why the model gives no step. -/
inductive Refusal where
  /-- An instruction without a meaning yet. Raised by no arm of `exec`: every instruction has its meaning. Safe. -/
  | notModelled (mnemonic : String)
  /-- A step of a halted core, which takes none (20_memory.md R59, 60_exceptions.md R206, D7; log 4). Raised by `step`
  alone. Safe. -/
  | coreHalted
  deriving DecidableEq, Repr

/-- The state after reset, which is the creation of the processor state (R32, R240): every value is R32's but for the two
channels, empty before the run's first step (log 2, log 3). -/
def State.reset : State where
  mem := []
  regs := { r0 := 0, r1 := 0, r2 := 0, r3 := 0 }
  pc := 0
  z := false
  run := .running
  inputWait := false
  input := []
  inputTaken := 0
  output := []

end Sys2Proof.Machine
end

