-- ==== Sys2Proof/Machine/Ops.lean ====
section
/-! DEFINITION. The named operations over memory, registers, the run state, the sequencer and the two channels. -/

namespace Sys2Proof.Machine

/-! ### Memory (20_memory.md R40, R42, R47) -/

/-- What an address that is not listed reads as: "Unused memory beyond the loaded program is zero-initialized" (R47(b), R32). -/
def unlistedByte : Byte := 0

/-- The canonical form from address `low` on: addresses rise strictly, lie inside memory, and no entry holds
`unlistedByte`. -/
def Memory.wfFrom : Nat → Memory → Bool
  | _, [] => true
  | low, (a, b) :: rest =>
    decide (low ≤ a) && decide (a < Config.memBytes) && decide (b ≠ unlistedByte) && Memory.wfFrom (a + 1) rest

/-- The canonical form of memory: equal memories are equal lists. -/
def Memory.wf (m : Memory) : Bool := Memory.wfFrom 0 m

/-- The byte at an address. -/
def Memory.get : Memory → Nat → Byte
  | [], _ => unlistedByte
  | (k, b) :: rest, a => if k = a then b else Memory.get rest a

/-- Put a cell before the cells of higher address, or nothing if it holds what an unlisted address reads as. -/
def Memory.cons (a : Nat) (b : Byte) (rest : Memory) : Memory :=
  if b = unlistedByte then rest else (a, b) :: rest

/-- Write the byte at an address, keeping the canonical form. -/
def Memory.put : Memory → Nat → Byte → Memory
  | [], a, b => Memory.cons a b []
  | (k, c) :: rest, a, b =>
    if a < k then Memory.cons a b ((k, c) :: rest)
    else if a = k then Memory.cons a b rest
    else (k, c) :: Memory.put rest a b

/-- `mem[a]`, for an address that exists (R40). -/
def Memory.readByte (m : Memory) (a : Nat) : Except Fault Byte :=
  if a < Config.memBytes then .ok (m.get a) else .error (.noSuchAddress a)

/-- `mem[a] <- b`, for an address that exists; only the host's load interface writes (R41, R55). -/
def Memory.writeByte (m : Memory) (a : Nat) (b : Byte) : Except Fault Memory :=
  if a < Config.memBytes then .ok (m.put a b) else .error (.noSuchAddress a)

/-- `MemRead(a, 2)`: big-endian, the high byte at `a` (R42). -/
def Memory.readWord (m : Memory) (a : Nat) : Except Fault Word :=
  match m.readByte a with
  | .error f => .error f
  | .ok high =>
    match m.readByte (a + 1) with
    | .error f => .error f
    | .ok low => .ok (wordOfBytes high low)

/-- `MemWrite(a, 2, w)`: big-endian (R42). -/
def Memory.writeWord (m : Memory) (a : Nat) (w : Word) : Except Fault Memory :=
  match m.writeByte a (highByte w) with
  | .error f => .error f
  | .ok m' => m'.writeByte (a + 1) (lowByte w)

/-! ### Registers (10_state.md R21, R22) -/

/-- `x[r]`. -/
def RegFile.get (x : RegFile) : Reg → Word
  | .r0 => x.r0
  | .r1 => x.r1
  | .r2 => x.r2
  | .r3 => x.r3

/-- `x[r] <- v`: no register is hardwired and none aliases another (R21). -/
def RegFile.set (x : RegFile) (r : Reg) (v : Word) : RegFile :=
  match r with
  | .r0 => { x with r0 := v }
  | .r1 => { x with r1 := v }
  | .r2 => { x with r2 := v }
  | .r3 => { x with r3 := v }

/-- `x[r]` of a state. -/
def State.readReg (s : State) (r : Reg) : Word := s.regs.get r

/-- `x[r] <- v` of a state. -/
def State.writeReg (s : State) (r : Reg) (v : Word) : State := { s with regs := s.regs.set r v }

/-- `Z <- b`, which overwrites the flag whole (R27). -/
def State.setZ (s : State) (b : Bool) : State := { s with z := b }

/-! ### Halting: the core's one exception mechanism (60_exceptions.md R200, R201) -/

/-- `run <- Halted(reason)`, the core's `raise`: there is no handler, no saved register and no vector, and nothing returns
from it (R200, R206). -/
def State.halt (s : State) (reason : HaltReason) : State := { s with run := .halted reason }

/-! ### The sequencer (30_encoding.md R71, R72) -/

/-- The outcome of an instruction, as the sequencer applies it at the end of the step (R71). -/
inductive Sequel where
  /-- `Advance`: `pc <- pc + 2`. -/
  | advance
  /-- `Jump(t)`: `pc <- t`. -/
  | jump (target : Word)
  deriving DecidableEq, Repr

/-- The pc after a step that began at `pc` (R72). From a step `pc + 2` never wraps (R74; log 19). -/
def Sequel.nextPc (pc : Word) : Sequel → Word
  | .advance => pc + 2
  | .jump t => t

/-- The end of a step: the sequencer's one write of the pc (R24, R72). -/
def State.sequence (s : State) (q : Sequel) : State := { s with pc := q.nextPc s.pc }

/-! ### The channels (20_memory.md R56, R57) -/

/-- The oldest answer is consumed, `rest` staying: the wait, if there was one, is over (R31, R56). -/
def State.takeAnswer (s : State) (rest : List InputAnswer) : State :=
  { s with input := rest, inputTaken := s.inputTaken + 1, inputWait := false }

/-- `InputRead()`: the oldest answer the host has given, consumed (R56); none while the host has not answered. -/
def State.inputRead (s : State) : Option (InputAnswer × State) :=
  match s.input with
  | [] => none
  | a :: rest => some (a, s.takeAnswer rest)

/-- The step of an INP that waits: nothing changes but that the core waits (R31; log 1). -/
def State.awaitInput (s : State) : State := { s with inputWait := true }

/-- `OutputWrite(v)`: one event, always accepted (R57). -/
def State.outputWrite (s : State) (v : Word) : State := { s with output := s.output ++ [v] }

end Sys2Proof.Machine
end

