-- ==== Sys2Proof/Machine/Flags.lean ====
section
/-! DEFINITION. Every computation of the one flag `Z` (10_state.md R27). -/

namespace Sys2Proof.Machine

/-- `r == 0`, the flag of ADD and SUB (40_arith.md R101, R102). -/
def zeroFlag (r : Word) : Bool := r == 0

/-- CMP (41_compare.md R121). -/
def compareEq (a b : Word) : Bool := a == b

/-- GRT, unsigned (R122). -/
def compareGt (a b : Word) : Bool := decide (a.toNat > b.toNat)

/-- GRE, unsigned (R123). -/
def compareGe (a b : Word) : Bool := decide (a.toNat ≥ b.toNat)

/-- LES, unsigned (R124). -/
def compareLt (a b : Word) : Bool := decide (a.toNat < b.toNat)

/-- LEE, unsigned (R125). -/
def compareLe (a b : Word) : Bool := decide (a.toNat ≤ b.toNat)

end Sys2Proof.Machine
end

