-- ==== Sys2Proof/Machine/Operands.lean ====
section
/-! DEFINITION. What an operand form denotes: an immediate and an input answer as 16-bit values. -/

namespace Sys2Proof.Machine

/-- `zext_16(imm)`: never sign-extended, never scaled (30_encoding.md R63). -/
def immValue (imm : Imm) : Word := imm.setWidth 16

/-- The jump target: the immediate as an absolute byte address, odd ones too (42_control.md R140). -/
def jumpTarget (imm : Imm) : Word := immValue imm

/-- `v mod 2^16` of any integer the host answers (43_system_io.md R161, D8; log 10). -/
def truncateInput (v : Int) : Word := BitVec.ofInt 16 v

end Sys2Proof.Machine
end

