-- ==== Sys2Proof/Machine/Arith.lean ====
section
/-! DEFINITION. LDI, ADD and SUB (spec 40_arith.md). -/

namespace Sys2Proof.Machine

/-- What ADD and SUB share: the result to `x[rd]`, `Z` overwritten by `r == 0`, then the advance (R101, R102). -/
def State.finishArith (s : State) (rd : Reg) (r : Word) : State :=
  ((s.writeReg rd r).setZ (zeroFlag r)).sequence .advance

/-- LDI Rd, imm (R100): `Z` is unchanged. -/
def execLdi (rd : Reg) (imm : Imm) (s : State) : Host.Outcome State Fault Refusal :=
  .next ((s.writeReg rd (immValue imm)).sequence .advance)

/-- ADD Rd, Rs (R101): modulo 2^16, no carry kept. -/
def execAdd (rd rs : Reg) (s : State) : Host.Outcome State Fault Refusal :=
  .next (s.finishArith rd (s.readReg rd + s.readReg rs))

/-- SUB Rd, Rs (R102): modulo 2^16, no borrow kept. -/
def execSub (rd rs : Reg) (s : State) : Host.Outcome State Fault Refusal :=
  .next (s.finishArith rd (s.readReg rd - s.readReg rs))

end Sys2Proof.Machine
end

