-- ==== Sys2Proof/Machine/Compare.lean ====
section
/-! DEFINITION. CMP, GRT, GRE, LES and LEE (spec 41_compare.md). -/

namespace Sys2Proof.Machine

/-- What the five compares share: only `Z` is written, then the advance (R120). -/
def State.finishCompare (s : State) (b : Bool) : State := (s.setZ b).sequence .advance

/-- CMP Rd, Rs (R121). -/
def execCmp (rd rs : Reg) (s : State) : Host.Outcome State Fault Refusal :=
  .next (s.finishCompare (compareEq (s.readReg rd) (s.readReg rs)))

/-- GRT Rd, Rs (R122). -/
def execGrt (rd rs : Reg) (s : State) : Host.Outcome State Fault Refusal :=
  .next (s.finishCompare (compareGt (s.readReg rd) (s.readReg rs)))

/-- GRE Rd, Rs (R123). -/
def execGre (rd rs : Reg) (s : State) : Host.Outcome State Fault Refusal :=
  .next (s.finishCompare (compareGe (s.readReg rd) (s.readReg rs)))

/-- LES Rd, Rs (R124). -/
def execLes (rd rs : Reg) (s : State) : Host.Outcome State Fault Refusal :=
  .next (s.finishCompare (compareLt (s.readReg rd) (s.readReg rs)))

/-- LEE Rd, Rs (R125). -/
def execLee (rd rs : Reg) (s : State) : Host.Outcome State Fault Refusal :=
  .next (s.finishCompare (compareLe (s.readReg rd) (s.readReg rs)))

end Sys2Proof.Machine
end

