-- ==== Sys2Proof/Machine/Control.lean ====
section
/-! DEFINITION. JMP, JZ and JNZ (spec 42_control.md). -/

namespace Sys2Proof.Machine

/-- `Jump(zext_16(imm))` if the condition holds, `Advance` if not (R142, R143). -/
def jumpIf (taken : Bool) (imm : Imm) : Sequel := if taken then .jump (jumpTarget imm) else .advance

/-- JMP imm (R141). -/
def execJmp (imm : Imm) (s : State) : Host.Outcome State Fault Refusal :=
  .next (s.sequence (.jump (jumpTarget imm)))

/-- JZ imm (R142). -/
def execJz (imm : Imm) (s : State) : Host.Outcome State Fault Refusal :=
  .next (s.sequence (jumpIf s.z imm))

/-- JNZ imm (R143). -/
def execJnz (imm : Imm) (s : State) : Host.Outcome State Fault Refusal :=
  .next (s.sequence (jumpIf (!s.z) imm))

end Sys2Proof.Machine
end

