-- ==== Sys2Proof/Machine/System.lean ====
section
/-! DEFINITION. HLT, INP, OUT (spec 43_system_io.md) and the two reserved opcodes (30_encoding.md R73). -/

namespace Sys2Proof.Machine

/-- HLT (R160): `pc` advances past it (R72). -/
def execHlt (s : State) : Host.Outcome State Fault Refusal :=
  .next ((s.halt .hlt).sequence .advance)

/-- What INP does with its answer: a value is written modulo 2^16, a parse failure writes nothing (R161, R202). -/
def State.acceptAnswer (s : State) (rd : Reg) : InputAnswer → State
  | .value v => s.writeReg rd (truncateInput v)
  | .parseFailure => s

/-- INP Rd (R161): while the host has not answered, the step waits and changes nothing of R20's state (R31; log 1). -/
def execInp (rd : Reg) (s : State) : Host.Outcome State Fault Refusal :=
  match s.inputRead with
  | none => .next s.awaitInput
  | some (a, s') => .next ((s'.acceptAnswer rd a).sequence .advance)

/-- OUT Rd (R162): exactly one output event. -/
def execOut (rd : Reg) (s : State) : Host.Outcome State Fault Refusal :=
  .next ((s.outputWrite (s.readReg rd)).sequence .advance)

/-- A reserved opcode (R73): the halt, and the advance that D4 chooses (log 8). -/
def State.unknownOpcode (s : State) (op : Opcode) : State :=
  (s.halt (.unknownOpcode op)).sequence .advance

/-- Opcode 0x4 (R73). -/
def execReserved4 (s : State) : Host.Outcome State Fault Refusal := .next (s.unknownOpcode 0x4)

/-- Opcode 0xF (R73). -/
def execReservedF (s : State) : Host.Outcome State Fault Refusal := .next (s.unknownOpcode 0xF)

end Sys2Proof.Machine
end

