-- ==== Sys2Proof/Machine/Dispatch.lean ====
section
/-! DEFINITION. The meaning of each instruction: `Execute` of spec 30_encoding.md R71 with the sequencer applied. -/

namespace Sys2Proof.Machine

def exec (i : Instr) (s : State) : Host.Outcome State Fault Refusal :=
  match i with
  | .hlt => Sys2Proof.Machine.execHlt s
  | .ldi rd imm => Sys2Proof.Machine.execLdi rd imm s
  | .add rd rs => Sys2Proof.Machine.execAdd rd rs s
  | .cmp rd rs => Sys2Proof.Machine.execCmp rd rs s
  | .sub rd rs => Sys2Proof.Machine.execSub rd rs s
  | .jmp imm => Sys2Proof.Machine.execJmp imm s
  | .jz imm => Sys2Proof.Machine.execJz imm s
  | .jnz imm => Sys2Proof.Machine.execJnz imm s
  | .inp rd => Sys2Proof.Machine.execInp rd s
  | .grt rd rs => Sys2Proof.Machine.execGrt rd rs s
  | .gre rd rs => Sys2Proof.Machine.execGre rd rs s
  | .les rd rs => Sys2Proof.Machine.execLes rd rs s
  | .lee rd rs => Sys2Proof.Machine.execLee rd rs s
  | .out rd => Sys2Proof.Machine.execOut rd s
  | .reserved4 => Sys2Proof.Machine.execReserved4 s
  | .reservedF => Sys2Proof.Machine.execReservedF s

end Sys2Proof.Machine
end

