-- ==== Sys2Proof/Machine/Fetch.lean ====
section
/-! DEFINITION. Fetching an instruction word, the fetch bound, and placing a word where the next fetch reads it
(spec 20_memory.md R43 to R45, R54). -/

namespace Sys2Proof.Machine

/-- FETCH_LIMIT, the first address whose fetch halts (00_scope.md R6, 20_memory.md R44, D2; log 6). -/
def fetchLimit : Word := 0xFFFE

/-- What the fetch of a step finds. -/
inductive Fetched where
  /-- The instruction word (R43). -/
  | word (w : Word)
  /-- The core halts (R44). -/
  | raises (reason : HaltReason)
  /-- The fetch reached outside memory: never, by the fetch bound. -/
  | faults (f : Fault)
  deriving DecidableEq, Repr

/-- The fetch: below the bound, one big-endian read at `pc`, odd or even (R43, R45); from the bound on, no read (R44). -/
def State.fetch (s : State) : Fetched :=
  if s.pc < fetchLimit then
    match s.mem.readWord s.pc.toNat with
    | .ok w => .word w
    | .error f => .faults f
  else .raises .addressOutOfRange

/-- The address the next fetch reads: `pc`, or the reset entry point where no fetch can read at `pc`. -/
def State.fetchPoint (s : State) : Word := if s.pc < fetchLimit then s.pc else 0

/-- The state with a word placed where the next step fetches, running and with `pc` there (log 12). -/
def State.placeWord (s : State) (w : Word) : State :=
  { s with
    run := .running
    pc := s.fetchPoint
    mem := (s.mem.put s.fetchPoint.toNat (highByte w)).put (s.fetchPoint.toNat + 1) (lowByte w) }

end Sys2Proof.Machine
end

