-- ==== Sys2Proof/Machine/Step.lean ====
section
/-! DEFINITION. One step of the core (spec 30_encoding.md R70, R71; 60_exceptions.md R204). -/

namespace Sys2Proof.Machine

/-- `Step()`: enabled only while the core runs (20_memory.md R59; log 4); the fetch bound first, then the decoded
instruction (R204). -/
def step (s : State) : Host.Outcome State Fault Refusal :=
  match s.run with
  | .halted _ => .refused .coreHalted
  | .running =>
    match s.fetch with
    | .word w => exec (decode w) s
    | .raises reason => .next (s.halt reason)
    | .faults f => .fault f

/-- The state with the instruction of `nbits` bits `w` placed where `step` fetches next (log 12). -/
def State.withFetchWord (s : State) (nbits w : Nat) : State :=
  s.placeWord (BitVec.ofNat 16 (w % 2 ^ nbits))

end Sys2Proof.Machine
end

