-- ==== Sys2Proof/Machine/HostPort.lean ====
section
/-! DEFINITION. What the host does to the core between steps, and what it reads (spec 20_memory.md R54 to R59,
70_reset_and_hazards.md R240, R242). The fetch port is `State.fetch` (Machine/Fetch.lean), step control is `step`
(Machine/Step.lean), the output channel is the field `State.output`. -/

namespace Sys2Proof.Machine

/-! ### Status (R28, R58) -/

/-- `IsRunning` (R28). -/
def State.isRunning (s : State) : Bool := s.run == .running

/-- The halt reason, which a running core has not (R32). -/
def State.haltReason (s : State) : Option HaltReason :=
  match s.run with
  | .running => none
  | .halted reason => some reason

/-! ### The input channel (R56) -/

/-- The host answers: its answer comes after those it has already given. A waiting INP takes it in the next step (R31). -/
def State.answer (s : State) (a : InputAnswer) : State := { s with input := s.input ++ [a] }

/-! ### Reset and load (R55, R240, R242) -/

/-- Reset of a core, running or halted: the state is discarded and created afresh (R240, D10; log 15). -/
def State.resetCore (_ : State) : State := State.reset

/-- Write words one after the other from an address on, two bytes each (R55, R87). -/
def Memory.writeWords (m : Memory) : Nat → List Word → Except Fault Memory
  | _, [] => .ok m
  | a, w :: rest =>
    match m.writeWord a w with
    | .error f => .error f
    | .ok m' => m'.writeWords (a + 2) rest

/-- Reset, then the image written from address 0 (R242 (1) and (3)): the state before the first step. An image that does
not fit memory is a fault of the load interface (log 11, log 12). -/
def boot (image : List Word) : Except Fault State :=
  match State.reset.mem.writeWords 0 image with
  | .error f => .error f
  | .ok m => .ok { State.reset with mem := m }

end Sys2Proof.Machine
end

