-- ==== Sys2Proof/Machine/Assembler.lean ====
section
/-! DEFINITION. The assembler's source language (spec 30_encoding.md R80 to R89): from the characters of a source file to
the words of an image. -/

namespace Sys2Proof.Machine

/-- A source file, its characters in order (R80). -/
abbrev Source := List Char

/-- A token of a line (R81). -/
abbrev Token := List Char

/-- The assembly-time errors (60_exceptions.md R203): all are fatal to the load, and the core is never stepped. -/
inductive AsmError where
  /-- The line's mnemonic is none of the fourteen (R82). -/
  | unknownInstruction (token : Token)
  /-- An operand token, or the line's set of operands, is not one the mnemonic takes (R83, R84, R86). -/
  | operandParseError
  /-- More than 32768 instructions (R87). -/
  | programTooLarge
  deriving DecidableEq, Repr

/-- An operand token, read. -/
inductive Operand where
  /-- `R` and digits, masked to two bits (R83). -/
  | reg (r : Reg)
  /-- A number, not masked yet (R84). -/
  | num (v : Int)
  deriving DecidableEq, Repr

/-- The operands a mnemonic takes, with the instruction they make (R85). -/
inductive Shape where
  | n (i : Instr)
  | ri (make : Reg → Imm → Instr)
  | rr (make : Reg → Reg → Instr)
  | j (make : Imm → Instr)
  | r (make : Reg → Instr)

/-! ### Lines and tokens (R80, R81) -/

/-- Cut a text at every character for which `cut` holds; the pieces, empty ones too. -/
def splitAtChars (cut : Char → Bool) : List Char → List (List Char)
  | [] => [[]]
  | c :: rest =>
    if cut c then [] :: splitAtChars cut rest
    else
      match splitAtChars cut rest with
      | [] => [[c]]
      | piece :: pieces => (c :: piece) :: pieces

/-- "one instruction per line" (R80). -/
def sourceLines (src : Source) : List (List Char) := splitAtChars (· == '\n') src

/-- "Strip everything from the first `;` onward" (R81). -/
def stripComment (line : List Char) : List Char := line.takeWhile (· != ';')

/-- "Commas are then replaced by spaces" (R81). -/
def commaToSpace (c : Char) : Char := if c = ',' then ' ' else c

/-- White space: blank, tab, carriage return and line feed (log 17). -/
def isSpace (c : Char) : Bool := c == ' ' || c == '\t' || c == '\r' || c == '\n'

/-- "the line is split on whitespace" (R81). -/
def lineTokens (line : List Char) : List Token :=
  (splitAtChars isSpace ((stripComment line).map commaToSpace)).filter (fun t => !t.isEmpty)

/-- A line that is blank once its comment is stripped: "skipped with no address consumed" (R81). -/
def isBlankLine (line : List Char) : Bool := (stripComment line).all isSpace

/-! ### Operand tokens (R83, R84) -/

/-- The number of one or more decimal digits; none for no digit or another character. -/
def digitsValue (ds : List Char) : Option Nat :=
  if ds.isEmpty then none
  else if ds.all Char.isDigit then some (ds.foldl (fun v c => 10 * v + (c.toNat - '0'.toNat)) 0)
  else none

/-- A register token's number, masked to two bits: `R5` is register 1 (R83). -/
def registerOfNumber (n : Nat) : Reg := Reg.ofBits (BitVec.ofNat 2 n)

/-- A number masked to two bits, in the Rs position (R84, R85). -/
def registerOfInt (v : Int) : Reg := Reg.ofBits (BitVec.ofInt 2 v)

/-- A number masked to ten bits, a negative one in two's complement: `-1` is 0x3FF (R84, D12; log 16). -/
def immOfInt (v : Int) : Imm := BitVec.ofInt 10 v

/-- Read an operand token: `R`/`r` and digits, or an optional `-` and digits (R83, R84, D12). -/
def parseOperand (t : Token) : Except AsmError Operand :=
  match t with
  | [] => .error .operandParseError
  | c :: rest =>
    if c = 'R' ∨ c = 'r' then
      match digitsValue rest with
      | some n => .ok (.reg (registerOfNumber n))
      | none => .error .operandParseError
    else if c = '-' then
      match digitsValue rest with
      | some n => .ok (.num (-(n : Int)))
      | none => .error .operandParseError
    else
      match digitsValue (c :: rest) with
      | some n => .ok (.num n)
      | none => .error .operandParseError

/-- Read every operand token; the first that cannot be read fails the line. -/
def parseOperands : List Token → Except AsmError (List Operand)
  | [] => .ok []
  | t :: rest =>
    match parseOperand t with
    | .error e => .error e
    | .ok o =>
      match parseOperands rest with
      | .error e => .error e
      | .ok os => .ok (o :: os)

/-! ### Mnemonics and operand shapes (R81, R85, R86) -/

/-- The fourteen mnemonics in capitals, each with the operands it takes (R81, R85). The reserved codes have none (R89). -/
def mnemonicShapes : List (Token × Shape) :=
  [ (['H', 'L', 'T'], .n .hlt),
    (['L', 'D', 'I'], .ri .ldi),
    (['A', 'D', 'D'], .rr .add),
    (['C', 'M', 'P'], .rr .cmp),
    (['S', 'U', 'B'], .rr .sub),
    (['J', 'M', 'P'], .j .jmp),
    (['J', 'Z'], .j .jz),
    (['J', 'N', 'Z'], .j .jnz),
    (['I', 'N', 'P'], .r .inp),
    (['G', 'R', 'T'], .rr .grt),
    (['G', 'R', 'E'], .rr .gre),
    (['L', 'E', 'S'], .rr .les),
    (['L', 'E', 'E'], .rr .lee),
    (['O', 'U', 'T'], .r .out) ]

/-- The shape of a mnemonic token, "case-insensitive" (R81). -/
def shapeOf (mnemonic : Token) : Option Shape := mnemonicShapes.lookup (mnemonic.map Char.toUpper)

/-- The instruction of a shape and operands; only the forms of R85, and a number in the Rs position, are taken (R86). -/
def Shape.instr : Shape → List Operand → Except AsmError Instr
  | .n i, [] => .ok i
  | .ri make, [.reg rd, .num v] => .ok (make rd (immOfInt v))
  | .rr make, [.reg rd, .reg rs] => .ok (make rd rs)
  | .rr make, [.reg rd, .num v] => .ok (make rd (registerOfInt v))
  | .j make, [.num v] => .ok (make (immOfInt v))
  | .r make, [.reg rd] => .ok (make rd)
  | _, _ => .error .operandParseError

/-! ### The pass (R82, R87, R88) -/

/-- One line: nothing for a blank one, else its instruction. The mnemonic is read before the operands (log 17). -/
def assembleLine (line : List Char) : Except AsmError (Option Instr) :=
  if isBlankLine line then .ok none
  else
    match lineTokens line with
    | [] => .error (.unknownInstruction [])
    | mnemonic :: operands =>
      match shapeOf mnemonic with
      | none => .error (.unknownInstruction mnemonic)
      | some shape =>
        match parseOperands operands with
        | .error e => .error e
        | .ok os =>
          match shape.instr os with
          | .error e => .error e
          | .ok i => .ok (some i)

/-- The lines from the first on, `count` instructions being placed already: a single forward pass (R88), the first error
ends it (R82), and the 32769th instruction is one (R87). -/
def assembleLines : Nat → List (List Char) → Except AsmError (List Instr)
  | _, [] => .ok []
  | count, line :: rest =>
    match assembleLine line with
    | .error e => .error e
    | .ok none => assembleLines count rest
    | .ok (some i) =>
      if count < Config.maxInstructions then
        match assembleLines (count + 1) rest with
        | .error e => .error e
        | .ok is => .ok (i :: is)
      else .error .programTooLarge

/-- The instructions of a source file, instruction k at address 2k (R87, R88). -/
def assembleInstrs (src : Source) : Except AsmError (List Instr) := assembleLines 0 (sourceLines src)

/-- The image of a source file, its words in address order (R85, R87). -/
def assemble (src : Source) : Except AsmError (List Word) :=
  match assembleInstrs src with
  | .error e => .error e
  | .ok is => .ok (is.map encode)

/-- The characters of a register operand (R83). -/
def Reg.source (r : Reg) : List Char := 'R' :: Nat.toDigits 10 r.index

/-- The line that R85's table writes for an instruction; the reserved codes have none (R89), their line is a comment. -/
def Instr.source : Instr → List Char
  | .hlt => ['H', 'L', 'T']
  | .ldi rd imm => ['L', 'D', 'I', ' '] ++ Reg.source rd ++ [',', ' '] ++ Nat.toDigits 10 imm.toNat
  | .add rd rs => ['A', 'D', 'D', ' '] ++ Reg.source rd ++ [',', ' '] ++ Reg.source rs
  | .cmp rd rs => ['C', 'M', 'P', ' '] ++ Reg.source rd ++ [',', ' '] ++ Reg.source rs
  | .sub rd rs => ['S', 'U', 'B', ' '] ++ Reg.source rd ++ [',', ' '] ++ Reg.source rs
  | .jmp imm => ['J', 'M', 'P', ' '] ++ Nat.toDigits 10 imm.toNat
  | .jz imm => ['J', 'Z', ' '] ++ Nat.toDigits 10 imm.toNat
  | .jnz imm => ['J', 'N', 'Z', ' '] ++ Nat.toDigits 10 imm.toNat
  | .inp rd => ['I', 'N', 'P', ' '] ++ Reg.source rd
  | .grt rd rs => ['G', 'R', 'T', ' '] ++ Reg.source rd ++ [',', ' '] ++ Reg.source rs
  | .gre rd rs => ['G', 'R', 'E', ' '] ++ Reg.source rd ++ [',', ' '] ++ Reg.source rs
  | .les rd rs => ['L', 'E', 'S', ' '] ++ Reg.source rd ++ [',', ' '] ++ Reg.source rs
  | .lee rd rs => ['L', 'E', 'E', ' '] ++ Reg.source rd ++ [',', ' '] ++ Reg.source rs
  | .out rd => ['O', 'U', 'T', ' '] ++ Reg.source rd
  | .reserved4 => [';']
  | .reservedF => [';']

/-- A source file of instructions, one a line (R80). -/
def sourceOf (is : List Instr) : Source := is.flatMap (fun i => Instr.source i ++ ['\n'])

/-- A run's beginning (R242 (1) to (3)): reset, assembly, load. A failed assembly gives no state to step (R82, R203). -/
def bootSource (src : Source) : Except AsmError State :=
  match assemble src with
  | .error e => .error e
  | .ok image =>
    match boot image with
    | .ok s => .ok s
    | .error _ => .error .programTooLarge

end Sys2Proof.Machine
end

