-- ==== Sys2Proof/Safety.lean ====
section
/-! DEFINITION. The terms in which claims about runs are made: reachability by steps, the model's invariants, and what the
core does to its surroundings. -/

namespace Sys2Proof.Machine

/-- `t` is reached from `s` by any number of steps, the host doing nothing in between. -/
inductive StepsTo : State → State → Prop where
  | refl (s : State) : StepsTo s s
  | tail {s t u : State} (before : StepsTo s t) (last : step t = .next u) : StepsTo s u

/-- The step of a state waits at an INP: the core runs, below the fetch bound, with an INP at `pc` (R31). -/
def State.atInp (s : State) : Prop :=
  s.run = .running ∧ ∃ w rd, s.fetch = .word w ∧ decode w = .inp rd

/-- The invariant of the model's representation: memory is in canonical form (Machine/Ops.lean), and a core that waits
for input waits at an INP it has fetched, still running (10_state.md R31). -/
structure State.Inv (s : State) : Prop where
  memCanonical : s.mem.wf = true
  waitsAtInp : s.inputWait = true → s.atInp

/-- Every jump word at an even address has an even target: the programs of which 10_state.md R26 says that `pc` stays even. -/
def Memory.evenTargets (m : Memory) : Prop :=
  ∀ (a : Nat) (w : Word), a % 2 = 0 → m.readWord a = .ok w →
    opcodeField w = 0x6 ∨ opcodeField w = 0x7 ∨ opcodeField w = 0x8 → w.toNat % 2 = 0

end Sys2Proof.Machine
end

