-- ==== Sys2Proof/Certificates/Slice0/Obligations.lean ====
section
/-! DEFINITION. The statements for the provers. `s.regs.get r` is x[r]; a record update `{ s with … }` says that every
field it does not name is unchanged, so each equation of a next state is also its frame. What a statement about `exec` says of
states in which no step executes (halted, or pc at the fetch bound) is the model's choice (log 19). -/

open Sys2Proof Sys2Proof.Machine

/-! ### Encoding and decoding -/

/-- R61, R66, R68, R85: decoding an encoded instruction gives it back, every operand at every value, and its bytes are read
as it and no more. -/
def Obligations.EncodedInstructionDecodesBack : Prop :=
  ∀ (i : Instr) (rest : List Byte),
    decode (encode i) = i ∧ decodeBytes (encodeBytes i ++ rest) = .ok (i, rest)

/-- R61: the encoder's formula, the decoder's shifts and masks, and that the two are inverse: on fields out of range after
masking (R68), on every word. -/
def Obligations.WordFieldsEncodeAndDecodeInverse : Prop :=
  (∀ op reg data : Nat, (encodeWord op reg data).toNat =
      ((op &&& 0xF) <<< 12 ||| (reg &&& 0x3) <<< 10 ||| (data &&& 0x3FF))) ∧
  (∀ w : Word, (opcodeField w).toNat = (w.toNat >>> 12) &&& 0xF ∧ (registerField w).toNat = (w.toNat >>> 10) &&& 0x3 ∧
      (dataField w).toNat = w.toNat &&& 0x3FF) ∧
  (∀ op reg data : Nat, (opcodeField (encodeWord op reg data)).toNat = op % 16 ∧
      (registerField (encodeWord op reg data)).toNat = reg % 4 ∧ (dataField (encodeWord op reg data)).toNat = data % 1024) ∧
  (∀ w : Word, encodeWord (opcodeField w).toNat (registerField w).toNat (dataField w).toNat = w)

/-- R66, R67, R68: each of the 65536 words is selected by exactly one row of the opcode table, decodes to that row's
instruction, and which one depends on w[15:12] alone (the bits that its format leaves unused: D5, D6, log 9). -/
def Obligations.EveryWordHasOneTableRow : Prop :=
  ∀ w : Word,
    (∃ row ∈ opcodeTable, row.matches w = true ∧ (decode w).mnemonic = row.mnemonic ∧
      ∀ other ∈ opcodeTable, other.matches w = true → other = row) ∧
    ["HLT", "LDI", "ADD", "CMP", "reserved_0x4", "SUB", "JMP", "JZ", "JNZ", "INP", "GRT", "GRE", "LES", "LEE", "OUT",
      "reserved_0xF"][w.toNat / 4096]? = some (decode w).mnemonic

/-- R64, R65, R67: the unused bits of a word do not change what it decodes to. The spec's decisions D5 and D6 (log 9). -/
def Obligations.UnusedBitsDoNotMatter : Prop :=
  ∀ w : Word,
    (w.toNat / 4096 ∈ [0x0, 0x4, 0xF] → decode w = decode (w &&& 0xF000)) ∧
    (w.toNat / 4096 ∈ [0x2, 0x3, 0x5, 0xA, 0xB, 0xC, 0xD] → decode w = decode (w &&& 0xFC03)) ∧
    (w.toNat / 4096 ∈ [0x6, 0x7, 0x8] → decode w = decode (w &&& 0xF3FF)) ∧
    (w.toNat / 4096 ∈ [0x9, 0xE] → decode w = decode (w &&& 0xFC00))

/-- 95_test_vectors.md section 2.1: words written out from the encodings (INP's w[9:0] ignored: D5, log 9). -/
def Obligations.SampleWordsDecode : Prop :=
  decode 0b0000_00_0000000000 = .hlt ∧
  decode 0b0001_11_1111111111 = .ldi .r3 1023 ∧
  decode 0b0010_11_00000000_10 = .add .r3 .r2 ∧
  decode 0b0011_10_00000000_11 = .cmp .r2 .r3 ∧
  decode 0b0110_00_0000010000 = .jmp 16 ∧
  decode 0b1001_10_1111111111 = .inp .r2 ∧
  decode 0b1100_11_00000000_10 = .les .r3 .r2 ∧
  decode 0b1110_01_0000000000 = .out .r1 ∧
  decode 0b0100_00_0100100011 = .reserved4

/-! ### Fetch and step -/

/-- R70, R71: while the core runs, below the fetch bound, a step is exec of the instruction that the two bytes at pc decode
to; the step adds nothing to it (the pc's advance or jump is exec's). At an odd pc this is R45, the spec's decision D3
(log 7). -/
def Obligations.StepRunsTheDecodedInstruction : Prop :=
  ∀ (s : State) (i : Instr), s.run = .running → s.pc.toNat < 0xFFFE →
    decodeBytes [s.mem.get s.pc.toNat, s.mem.get (s.pc.toNat + 1)] = .ok (i, []) → step s = exec i s

/-- R43: the fetch reads two bytes, big-endian, at pc. That it does so at an odd pc too is R45, the spec's decision D3
(log 7). -/
def Obligations.FetchReadsTwoBytesBigEndian : Prop :=
  ∀ s : State, s.pc.toNat < 0xFFFE →
    ∃ (high low : Byte) (w : Word), s.mem.readByte s.pc.toNat = .ok high ∧ s.mem.readByte (s.pc.toNat + 1) = .ok low ∧
      s.fetch = .word w ∧ w.toNat = high.toNat * 256 + low.toNat

/-- R44, by the spec's decision D2 (log 6): a step that starts at pc ≥ 0xFFFE halts the core and changes nothing else. -/
def Obligations.FetchBoundHaltsTheCore : Prop :=
  ∀ s : State, s.run = .running → 0xFFFE ≤ s.pc.toNat →
    step s = .next { s with run := .halted .addressOutOfRange }

/-- R28, R206, R59: a halted core takes no step (that it is refused is the model's form of D7, log 4), so no run leaves it. -/
def Obligations.HaltedCoreStaysAsItIs : Prop :=
  ∀ (s : State) (reason : HaltReason), s.run = .halted reason →
    step s = .refused .coreHalted ∧ ∀ t, StepsTo s t → t = s

/-- R59, R70: a step is enabled exactly while the core runs; and no step ends in a fault, whatever the state: no fetch
leaves memory, and no instruction is refused. At an INP that the host has not answered, the next state is the model's choice
(log 1): R31 calls that step begun and not finished. That a halted core takes no step is the spec's decision D7, its
refusal the model's form (log 4). -/
def Obligations.StepIsEnabledExactlyWhileRunning : Prop :=
  ∀ s : State, (s.run = .running ↔ ∃ t, step s = .next t) ∧ (∀ f, step s ≠ .fault f)

/-- The model's invariant (canonical memory; a core that waits for input waits at an INP, R31) holds after reset and after
every load. The memory list and the wait as state are the model's choices (logs 1, 20). -/
def Obligations.InvHoldsBeforeTheFirstStep : Prop :=
  State.reset.Inv ∧ ∀ (image : List Word) (s : State), boot image = .ok s → s.Inv

/-- From any state that meets the invariant, a step gives one that does, and so does the host's answer of the input
channel. The wait and the list of answers as state are the model's choices (logs 1, 2). -/
def Obligations.EveryStepKeepsInv : Prop :=
  ∀ s : State, s.Inv → (∀ t, step s = .next t → t.Inv) ∧ ∀ a : InputAnswer, (s.answer a).Inv

/-- R26: where every jump word at an even address has an even target, an even pc stays even through any run; and a jump
whose target is odd makes pc odd (D3, log 7). -/
def Obligations.EvenPcStaysEvenWithEvenTargets : Prop :=
  (∀ s t : State, s.mem.evenTargets → s.pc.toNat % 2 = 0 → StepsTo s t → t.pc.toNat % 2 = 0 ∧ t.mem.evenTargets) ∧
  (∀ (s : State) (imm : Imm), imm.toNat % 2 = 1 → ∃ t, exec (.jmp imm) s = .next t ∧ t.pc.toNat % 2 = 1)

/-- R74, R26, R72: pc never wraps. A step at the fetch bound halts and leaves pc (D2, log 6); below it, pc is the target, at
most 0x03FF, exactly if the fetched word is JMP, or a JZ or JNZ that Z lets be taken (R141 to R143); an INP without an answer
leaves pc and waits (log 1); and every other step adds 2 to pc as a number. That this holds of a reserved word (R73) is the
spec's decision D4 (log 8), of a fetch at an odd pc D3 (log 7), of a word with nonzero unused bits D5 and D6 (log 9). -/
def Obligations.PcNeverWraps : Prop :=
  ∀ s t : State, step s = .next t →
    (0xFFFE ≤ s.pc.toNat ∧ t.pc = s.pc ∧ t.run = .halted .addressOutOfRange) ∨
    (s.pc.toNat < 0xFFFE ∧ ∃ w : Word, s.fetch = .word w ∧
      if w.toNat / 4096 = 0x6 ∨ (w.toNat / 4096 = 0x7 ∧ s.z = true) ∨ (w.toNat / 4096 = 0x8 ∧ s.z = false) then
        t.pc.toNat = w.toNat % 1024
      else if w.toNat / 4096 = 0x9 ∧ s.input = [] then t.pc = s.pc ∧ t.inputWait = true
      else t.pc.toNat = s.pc.toNat + 2)

/-- R41, R52: no instruction reads data from memory (exchange the memory, and it does the same) or writes to it, so memory
is constant through every run. That an INP without an answer answers a next state too is the model's choice (log 1). -/
def Obligations.InstructionsNeitherReadNorWriteMemory : Prop :=
  (∀ (i : Instr) (s : State), ∃ t, exec i s = .next t ∧ t.mem = s.mem ∧
      ∀ m : Memory, exec i { s with mem := m } = .next { t with mem := m }) ∧
  (∀ s t : State, StepsTo s t → t.mem = s.mem)

/-- R72, R25: the sequencer. exec answers a next state for every instruction; pc is the target after JMP and a taken JZ or
JNZ, is left as it is by an INP without an answer, which has not finished (R31; that it answers a next state is log 1), and
advances by 2 after every other, HLT and an untaken jump among them. After a reserved opcode that is the spec's decision D4
(log 8); in states where no step executes anything, `s.pc + 2` is the model's (log 19). -/
def Obligations.SequencerAdvancesOrJumps : Prop :=
  ∀ (i : Instr) (s : State), ∃ t, exec i s = .next t ∧ t.pc =
    match i with
    | .jmp imm => BitVec.ofNat 16 imm.toNat
    | .jz imm => if s.z = true then BitVec.ofNat 16 imm.toNat else s.pc + 2
    | .jnz imm => if s.z = false then BitVec.ofNat 16 imm.toNat else s.pc + 2
    | .inp _ => if s.input = [] then s.pc else s.pc + 2
    | _ => s.pc + 2

/-- R201, R204, R205: a step halts the core for exactly the reasons of the table (the fetch bound first, then the opcode),
and the halting step makes no other change than the pc's advance. The bound is D2's, the fetch at an odd pc D3's and the pc
after a reserved word D4's (logs 6, 7, 8). -/
def Obligations.HaltsForExactlyTheListedReasons : Prop :=
  ∀ s t : State, step s = .next t →
    (∀ reason : HaltReason, t.run = .halted reason ↔
      (0xFFFE ≤ s.pc.toNat ∧ reason = .addressOutOfRange) ∨
      (s.pc.toNat < 0xFFFE ∧ ∃ w : Word, s.fetch = .word w ∧
        ((w.toNat / 4096 = 0x0 ∧ reason = .hlt) ∨
          (w.toNat / 4096 = 0x4 ∧ reason = .unknownOpcode 0x4) ∨
          (w.toNat / 4096 = 0xF ∧ reason = .unknownOpcode 0xF)))) ∧
    (t.run ≠ .running → t = { s with run := t.run, pc := if 0xFFFE ≤ s.pc.toNat then s.pc else s.pc + 2 })

/-- R48: zero bytes at pc halt the core with reason Hlt, pc two past them; at an odd pc by R45, the spec's decision D3
(log 7). -/
def Obligations.ZeroedMemoryHalts : Prop :=
  ∀ s : State, s.run = .running → s.pc.toNat < 0xFFFE →
    s.mem.readByte s.pc.toNat = .ok 0 → s.mem.readByte (s.pc.toNat + 1) = .ok 0 →
    step s = .next { s with run := .halted .hlt, pc := s.pc + 2 }

/-! ### The instructions: encoding and effect -/

/-- R100: LDI. -/
def Obligations.LdiLoadsTheImmediate : Prop :=
  (∀ w : Word, w.toNat / 4096 = 0x1 →
    ∃ rd : Reg, rd.index = w.toNat / 1024 % 4 ∧ decode w = .ldi rd (BitVec.ofNat 10 (w.toNat % 1024))) ∧
  (∀ (rd : Reg) (imm : Imm) (s : State) (r : Word), r.toNat = imm.toNat →
    exec (.ldi rd imm) s = .next { s with regs := s.regs.set rd r, pc := s.pc + 2 })

/-- R101: ADD, modulo 2^16, with Z overwritten by the result's being 0 (w[9:2] ignored: D6, log 9). -/
def Obligations.AddWrapsAndSetsZ : Prop :=
  (∀ w : Word, w.toNat / 4096 = 0x2 →
    ∃ rd rs : Reg, rd.index = w.toNat / 1024 % 4 ∧ rs.index = w.toNat % 4 ∧ decode w = .add rd rs) ∧
  (∀ (rd rs : Reg) (s : State) (r : Word),
    r.toNat = ((s.regs.get rd).toNat + (s.regs.get rs).toNat) % 2 ^ 16 →
    exec (.add rd rs) s = .next { s with regs := s.regs.set rd r, z := decide (r.toNat = 0), pc := s.pc + 2 })

/-- R102: SUB, modulo 2^16, with Z overwritten by the result's being 0, which is the operands' having been equal
(w[9:2] ignored: D6, log 9). -/
def Obligations.SubWrapsAndSetsZ : Prop :=
  (∀ w : Word, w.toNat / 4096 = 0x5 →
    ∃ rd rs : Reg, rd.index = w.toNat / 1024 % 4 ∧ rs.index = w.toNat % 4 ∧ decode w = .sub rd rs) ∧
  (∀ (rd rs : Reg) (s : State) (r : Word),
    (r.toNat : Int) = ((s.regs.get rd).toNat - (s.regs.get rs).toNat : Int) % 2 ^ 16 →
    exec (.sub rd rs) s = .next { s with regs := s.regs.set rd r, z := decide (r.toNat = 0), pc := s.pc + 2 } ∧
    (r.toNat = 0 ↔ s.regs.get rd = s.regs.get rs))

/-- R121 to R125: the five compares, unsigned; each writes Z alone (w[9:2] ignored: D6, log 9). -/
def Obligations.ComparesWriteZAlone : Prop :=
  (∀ w : Word, ∀ op ∈ [0x3, 0xA, 0xB, 0xC, 0xD], w.toNat / 4096 = op →
    ∃ rd rs : Reg, rd.index = w.toNat / 1024 % 4 ∧ rs.index = w.toNat % 4 ∧ decode w =
      if op = 0x3 then .cmp rd rs else if op = 0xA then .grt rd rs else if op = 0xB then .gre rd rs
      else if op = 0xC then .les rd rs else .lee rd rs) ∧
  (∀ (rd rs : Reg) (s : State) (a b : Nat), a = (s.regs.get rd).toNat → b = (s.regs.get rs).toNat →
    exec (.cmp rd rs) s = .next { s with z := decide (a = b), pc := s.pc + 2 } ∧
    exec (.grt rd rs) s = .next { s with z := decide (a > b), pc := s.pc + 2 } ∧
    exec (.gre rd rs) s = .next { s with z := decide (a ≥ b), pc := s.pc + 2 } ∧
    exec (.les rd rs) s = .next { s with z := decide (a < b), pc := s.pc + 2 } ∧
    exec (.lee rd rs) s = .next { s with z := decide (a ≤ b), pc := s.pc + 2 })

/-- R141, R142, R143: the three jumps, to an absolute byte address, odd or even, of at most 1023; no register and no flag
is written (w[11:10] ignored: D5, log 9; odd targets: D3, log 7). -/
def Obligations.JumpsSetPcAlone : Prop :=
  (∀ w : Word, ∀ imm : Imm, imm.toNat = w.toNat % 1024 →
    (w.toNat / 4096 = 0x6 → decode w = .jmp imm) ∧ (w.toNat / 4096 = 0x7 → decode w = .jz imm) ∧
    (w.toNat / 4096 = 0x8 → decode w = .jnz imm)) ∧
  (∀ (imm : Imm) (s : State) (t : Word), t.toNat = imm.toNat →
    exec (.jmp imm) s = .next { s with pc := t } ∧
    exec (.jz imm) s = .next { s with pc := if s.z then t else s.pc + 2 } ∧
    exec (.jnz imm) s = .next { s with pc := if s.z then s.pc + 2 else t })

/-- R160: HLT halts the core, pc two past it; no further step is taken (D7, log 4; w[11:0] ignored: D5, log 9). -/
def Obligations.HltHaltsTheCore : Prop :=
  (∀ w : Word, w.toNat / 4096 = 0x0 → decode w = .hlt) ∧
  (∀ s : State, exec .hlt s = .next { s with run := .halted .hlt, pc := s.pc + 2 } ∧
    step { s with run := .halted .hlt, pc := s.pc + 2 } = .refused .coreHalted)

/-- R161, R202, R56: INP consumes exactly one answer, the oldest; a value is written modulo 2^16 (for a negative one the
spec's decision D8, log 10), a parse failure writes no register. The answers and their count as state are the model's
choice (logs 2, 3); w[9:0] ignored: D5, log 9. -/
def Obligations.InpConsumesOneAnswer : Prop :=
  (∀ w : Word, w.toNat / 4096 = 0x9 → ∃ rd : Reg, rd.index = w.toNat / 1024 % 4 ∧ decode w = .inp rd) ∧
  (∀ (rd : Reg) (s : State) (v : Int) (r : Word) (rest : List InputAnswer),
    s.input = .value v :: rest → (r.toNat : Int) = v % 2 ^ 16 →
    exec (.inp rd) s = .next { s with regs := s.regs.set rd r, pc := s.pc + 2, input := rest,
                                      inputTaken := s.inputTaken + 1, inputWait := false }) ∧
  (∀ (rd : Reg) (s : State) (rest : List InputAnswer), s.input = .parseFailure :: rest →
    exec (.inp rd) s = .next { s with pc := s.pc + 2, input := rest, inputTaken := s.inputTaken + 1,
                                      inputWait := false })

/-- R31: an INP that the host has not answered waits: nothing of R20's state changes, through any number of steps, and the
wait lasts as long as no answer comes. That the wait is steps of the model is log 1; the fetch at an odd pc is D3's (log 7). -/
def Obligations.UnansweredInpWaitsForEver : Prop :=
  ∀ (s : State) (w : Word) (rd : Reg), s.run = .running → s.fetch = .word w → decode w = .inp rd → s.input = [] →
    exec (.inp rd) s = .next { s with inputWait := true } ∧
    ∀ n : Nat, Host.Core.run Sys2Proof.core (n + 1) s = .next { s with inputWait := true }

/-- R31, R56: when the host answers, the waiting INP's step ends exactly as it would have, had the answer been there before.
The wait as a step, and the answers as a list in the state, are the model's choices (logs 1, 2). -/
def Obligations.AnswerEndsTheWait : Prop :=
  ∀ (s : State) (w : Word) (rd : Reg) (a : InputAnswer),
    s.run = .running → s.fetch = .word w → decode w = .inp rd → s.input = [] →
    ∃ waiting done, step s = .next waiting ∧ waiting.inputWait = true ∧ step (waiting.answer a) = .next done ∧
      step (s.answer a) = .next done ∧ done.inputWait = false ∧ done.input = [] ∧ done.pc = s.pc + 2

/-- R162: OUT sends the register's whole value, once. The output as a list in the state is the model's choice (log 3);
w[9:0] ignored: D5, log 9. -/
def Obligations.OutSendsTheRegister : Prop :=
  (∀ w : Word, w.toNat / 4096 = 0xE → ∃ rd : Reg, rd.index = w.toNat / 1024 % 4 ∧ decode w = .out rd) ∧
  (∀ (rd : Reg) (s : State),
    exec (.out rd) s = .next { s with output := s.output ++ [s.regs.get rd], pc := s.pc + 2 })

/-- R67, R73: a reserved opcode, whatever its other twelve bits, halts the core with its opcode as the reason's value. That
pc advances is the spec's decision D4 (log 8). -/
def Obligations.ReservedOpcodesHaltTheCore : Prop :=
  (∀ w : Word, (w.toNat / 4096 = 0x4 → decode w = .reserved4) ∧ (w.toNat / 4096 = 0xF → decode w = .reservedF)) ∧
  (∀ s : State,
    exec .reserved4 s = .next { s with run := .halted (.unknownOpcode 0x4), pc := s.pc + 2 } ∧
    exec .reservedF s = .next { s with run := .halted (.unknownOpcode 0xF), pc := s.pc + 2 })

/-! ### What instructions leave alone -/

/-- R23, R27, R29, R41, R211: the frame of every instruction. Each byte of memory reads as before; a register changes only
as the destination of LDI, ADD, SUB or an INP whose answer is a value; Z only by ADD, SUB and the five compares; run only
by HLT and the reserved opcodes; the output only by OUT; the input channel and its wait only by INP. The wait, the answers,
their count and the output as state are the model's choices (logs 1, 2, 3). -/
def Obligations.InstructionsChangeOnlyTheirOwnState : Prop :=
  ∀ (i : Instr) (s t : State), exec i s = .next t →
    (∀ a : Nat, t.mem.readByte a = s.mem.readByte a) ∧
    (∀ q : Reg, t.regs.get q ≠ s.regs.get q →
      (∃ imm, i = .ldi q imm) ∨ (∃ rs, i = .add q rs) ∨ (∃ rs, i = .sub q rs) ∨
      (i = .inp q ∧ ∃ v rest, s.input = .value v :: rest)) ∧
    (t.z ≠ s.z → ∃ rd rs, i = .add rd rs ∨ i = .sub rd rs ∨ i = .cmp rd rs ∨ i = .grt rd rs ∨ i = .gre rd rs ∨
      i = .les rd rs ∨ i = .lee rd rs) ∧
    (t.run ≠ s.run → i = .hlt ∨ i = .reserved4 ∨ i = .reservedF) ∧
    (t.output ≠ s.output → ∃ rd, i = .out rd) ∧
    (t.input ≠ s.input ∨ t.inputTaken ≠ s.inputTaken ∨ t.inputWait ≠ s.inputWait → ∃ rd, i = .inp rd)

/-- R27: only JZ and JNZ read Z. Exchange the flag before any other instruction, and it ends in the same state, but that an
instruction which does not write Z leaves it as exchanged. That an INP without an answer ends in a next state too is the
model's choice (log 1). -/
def Obligations.OnlyConditionalJumpsReadZ : Prop :=
  ∀ (i : Instr) (s : State) (b : Bool), (∀ imm, i ≠ .jz imm ∧ i ≠ .jnz imm) →
    ∃ t t' : State, exec i s = .next t ∧ exec i { s with z := b } = .next t' ∧ t' = { t with z := t'.z } ∧
      (t'.z = t.z ∨ (t.z = s.z ∧ t'.z = b))

/-- R211: only INP and OUT cross to the channels. Exchange what the channels hold before any other instruction, and it does
the same to the rest and leaves the channels as exchanged. The channels as state are the model's choices (logs 1, 2, 3). -/
def Obligations.OnlyInpAndOutReachTheChannels : Prop :=
  ∀ (i : Instr) (s : State) (wait : Bool) (answers : List InputAnswer) (taken : Nat) (sent : List Word),
    (∀ rd, i ≠ .inp rd ∧ i ≠ .out rd) →
    ∃ t, exec i s = .next t ∧
      exec i { s with inputWait := wait, input := answers, inputTaken := taken, output := sent } =
        .next { t with inputWait := wait, input := answers, inputTaken := taken, output := sent }

/-- R56, R57, R247: through any run the answers are consumed one by one in their order, the count of them is kept, and the
values sent are never taken back. The queue of answers, their count and the output as fields of the state are the model's
choices (logs 2, 3); that they are consumed in order is the spec's decision D18. -/
def Obligations.RunsConsumeAnswersInOrder : Prop :=
  ∀ s t : State, StepsTo s t →
    (∃ consumed, s.input = consumed ++ t.input ∧ t.inputTaken = s.inputTaken + consumed.length) ∧
    (∃ sent, t.output = s.output ++ sent)

/-! ### Memory, reset and load -/

/-- R40: memory's canonical form: two canonical memories that read alike at every address are the same memory.
The list form, and that an unlisted address reads as 0, are the model's (log 20). -/
def Obligations.CanonicalMemoriesThatReadAlikeAreEqual : Prop :=
  ∀ m m' : Memory, m.wf = true → m'.wf = true →
    (∀ a : Nat, a < 65536 → m.readByte a = m'.readByte a) → m = m'

/-- R42: words are big-endian, for the fetch and for the loader: the byte at an address is bits 15:8 of the word there and
bits 7:0 of the word one address below; a word written reads back, and no other byte changes. -/
def Obligations.WordsAreStoredBigEndian : Prop :=
  (∀ (m : Memory) (a : Nat), a + 1 < 65536 → ∃ w : Word, m.readWord a = .ok w ∧
      w.toNat = (m.get a).toNat * 256 + (m.get (a + 1)).toNat ∧ highByte w = m.get a ∧ lowByte w = m.get (a + 1)) ∧
  (∀ (m m' : Memory) (a : Nat) (w : Word), m.wf = true → m.writeWord a w = .ok m' →
      (m'.get a).toNat = w.toNat / 256 ∧ (m'.get (a + 1)).toNat = w.toNat % 256 ∧ m'.readWord a = .ok w ∧
      ∀ c : Nat, c ≠ a → c ≠ a + 1 → m'.readByte c = m.readByte c)

/-- R32, R240: the state after reset. Z's value is the spec's decision D1 (log 5), the empty channels are the model's
(logs 2, 3). -/
def Obligations.ResetState : Prop :=
  (∀ a : Nat, a < 65536 → State.reset.mem.readByte a = .ok 0) ∧ (∀ r : Reg, State.reset.regs.get r = 0) ∧
  State.reset.pc = 0 ∧ State.reset.z = false ∧ State.reset.run = .running ∧ State.reset.haltReason = none ∧
  State.reset.inputWait = false ∧ State.reset.input = [] ∧ State.reset.inputTaken = 0 ∧ State.reset.output = []

/-- R47, R55, R242: an image of at most 32768 words is loaded from address 0, two bytes an instruction, big-endian; every
byte past it is 0; the rest is as after reset. That reset and load are the one action `boot` is the model's choice (log 12);
that it answers an error for a longer image is the model's inference from R40 (log 11, DEDUCED). -/
def Obligations.BootPlacesTheImage : Prop :=
  ∀ image : List Word,
    (image.length ≤ 32768 → ∃ s, boot image = .ok s ∧ s = { State.reset with mem := s.mem } ∧
      (∀ (k : Nat) (w : Word), image[k]? = some w →
        s.mem.readByte (2 * k) = .ok (BitVec.ofNat 8 (w.toNat / 256)) ∧
        s.mem.readByte (2 * k + 1) = .ok (BitVec.ofNat 8 (w.toNat % 256))) ∧
      (∀ a : Nat, 2 * image.length ≤ a → a < 65536 → s.mem.readByte a = .ok 0)) ∧
    (32768 < image.length → ∃ f, boot image = .error f)

/-! ### The assembler -/

/-- R83, R84: register and numeric operand tokens in decimal, `R5` masked to two bits, a number masked to the ten bits of
the data field or the two of Rs, a negative one in two's complement (D12, log 16). -/
def Obligations.OperandTokensAreReadAndMasked : Prop :=
  (∀ n : Nat, ∃ r : Reg, r.index = n % 4 ∧ parseOperand ('R' :: Nat.toDigits 10 n) = .ok (.reg r) ∧
    parseOperand ('r' :: Nat.toDigits 10 n) = .ok (.reg r)) ∧
  (∀ n : Nat, parseOperand (Nat.toDigits 10 n) = .ok (.num n) ∧
    parseOperand ('-' :: Nat.toDigits 10 n) = .ok (.num (-(n : Int)))) ∧
  (∀ v : Int, ((immOfInt v).toNat : Int) = v % 1024 ∧ ((registerOfInt v).index : Int) = v % 4)

/-- R85, R80, R87: the source lines of R85's table, one an instruction, assemble to those instructions' words in order.
That lines end at the line feed and the blank is white space is the model's choice (log 17); decimal operands are
the spec's decision D12, the operand shapes D13, the 32768 lines D14 (log 16), the zeroed unused bits D5 and D6 (log 9). -/
def Obligations.WrittenInstructionsAssembleToTheirWords : Prop :=
  ∀ is : List Instr, (∀ i ∈ is, i.wf = true) → is.length ≤ 32768 → assemble (sourceOf is) = .ok (is.map encode)

/-- R85, R87, R89: an assembled image fits memory and holds no reserved opcode and no nonzero unused bit. That it has at most
32768 words is the spec's decision D14 (log 16), where its source lets a longer program overflow silently; the zeroed
unused bits are its decisions D5 and D6 (log 9). -/
def Obligations.AssembledImagesAreCanonical : Prop :=
  ∀ (src : Source) (image : List Word), assemble src = .ok image →
    image.length ≤ 32768 ∧ ∀ w ∈ image, (decode w).wf = true ∧ encode (decode w) = w

/-- R81: the mnemonic and the register prefix may be written in either case: a source in capitals assembles alike.
Which sources assemble rests on D12 to D14 (log 16) and on the model's white space (log 17). -/
def Obligations.SourceCaseDoesNotMatter : Prop :=
  ∀ (src : Source) (image : List Word), assemble src = .ok image ↔ assemble (src.map Char.toUpper) = .ok image

/-- R82, R203: the first line whose mnemonic is none of the fourteen fails the assembly with that token, and there is no
state to step. That this is the error reported whatever the line's operands, whatever the count of lines before it and
whatever follows is the model's choice of which error comes first (log 17). -/
def Obligations.UnknownMnemonicFailsTheLoad : Prop :=
  ∀ (src : Source) (before after : List (List Char)) (line : List Char) (earlier : List Instr) (token : Token)
    (operands : List Token),
    sourceLines src = before ++ line :: after → assembleLines 0 before = .ok earlier → isBlankLine line = false →
    lineTokens line = token :: operands →
    token.map Char.toUpper ∉ ["HLT", "LDI", "ADD", "CMP", "SUB", "JMP", "JZ", "JNZ", "INP", "GRT", "GRE", "LES", "LEE",
      "OUT"].map String.toList →
    assemble src = .error (.unknownInstruction token) ∧ bootSource src = .error (.unknownInstruction token)

/-- R242, R47: what is assembled is what is loaded: a source that assembles boots, and then the words fetched from address 0
on, two bytes apart, are the image's. That assembly, reset and load are the one action `bootSource` is the model's choice
(log 12). -/
def Obligations.AssembledSourceBoots : Prop :=
  ∀ (src : Source) (image : List Word), assemble src = .ok image →
    ∃ s, bootSource src = .ok s ∧ s.run = .running ∧ s.pc = 0 ∧
      ∀ (k : Nat) (w : Word), image[k]? = some w → k < 32767 → State.fetch { s with pc := BitVec.ofNat 16 (2 * k) } = .word w
end

