-- ==== Sys2Proof/Laws/Assembler.lean ====
section
/-! SUPPORT. The assembler's shared operations, each said once: cutting a text, reading decimal digits, upper case, and
where an instruction of a line comes from. -/

namespace Sys2Proof.Machine

/-- A piece without a cut, then a cut: the piece is the first one. -/
theorem splitAtChars_append (cut : Char → Bool) (piece rest : List Char) (c : Char)
    (hpiece : ∀ d ∈ piece, cut d = false) (hc : cut c = true) :
    splitAtChars cut (piece ++ c :: rest) = piece :: splitAtChars cut rest := by
  induction piece with
  | nil => simp [splitAtChars, hc]
  | cons d piece ih =>
    have h := ih (fun e he => hpiece e (List.mem_cons_of_mem _ he))
    simp [splitAtChars, hpiece d (by simp), h]

/-- A text without a cut is one piece. -/
theorem splitAtChars_whole (cut : Char → Bool) (piece : List Char) (hpiece : ∀ d ∈ piece, cut d = false) :
    splitAtChars cut piece = [piece] := by
  induction piece with
  | nil => rfl
  | cons d piece ih =>
    have h := ih (fun e he => hpiece e (List.mem_cons_of_mem _ he))
    simp [splitAtChars, hpiece d (by simp), h]

/-- Cutting commutes with a change of letters that changes no cut. -/
theorem splitAtChars_map (cut : Char → Bool) (f : Char → Char) (h : ∀ c, cut (f c) = cut c) (text : List Char) :
    splitAtChars cut (text.map f) = (splitAtChars cut text).map (List.map f) := by
  induction text with
  | nil => rfl
  | cons c rest ih =>
    simp only [List.map_cons, splitAtChars, h, ih]
    split
    · rfl
    · cases splitAtChars cut rest <;> rfl

/-- The decimal digits of a number read as that number. -/
theorem digitsValue_toDigits (n : Nat) : digitsValue (Nat.toDigits 10 n) = some n := by
  have hne : (Nat.toDigits 10 n).isEmpty = false := by simp [Nat.toDigits_ne_nil]
  have hall : (Nat.toDigits 10 n).all Char.isDigit = true :=
    List.all_eq_true.mpr fun c hc => Nat.isDigit_of_mem_toDigits (by omega) (by omega) hc
  have hval := @Nat.ofDigitChars_ten_toDigits n
  rw [Nat.ofDigitChars_eq_foldl] at hval
  unfold digitsValue
  rw [hne, hall]
  simp only [Bool.false_eq_true, if_false, if_true]
  exact congrArg some hval

/-- Upper case changes the twenty-six small letters alone. -/
theorem toUpper_eq_self_or_small (c : Char) : c.toUpper = c ∨ (97 ≤ c.toNat ∧ c.toNat ≤ 122) := by
  by_cases h : 'a'.val ≤ c.val ∧ c.val ≤ 'z'.val
  · exact .inr ⟨h.1, h.2⟩
  · left
    unfold Char.toUpper
    rw [dif_neg h]

/-- What `lookup` finds is in the list. -/
theorem mem_of_lookup {α β : Type} [BEq α] [LawfulBEq α] {l : List (α × β)} {a : α} {b : β} (h : l.lookup a = some b) :
    (a, b) ∈ l := by
  induction l with
  | nil => simp at h
  | cons cell rest ih =>
    obtain ⟨x, y⟩ := cell
    rw [List.lookup_cons] at h
    split at h
    · rename_i hx
      simp only [Option.some.injEq] at h
      subst h
      simp [eq_of_beq hx]
    · exact List.mem_cons_of_mem _ (ih h)

/-- Where a line's instruction comes from: a mnemonic's shape, given operands that were read. -/
theorem assembleLine_cases {line : List Char} {i : Instr} (h : assembleLine line = .ok (some i)) :
    ∃ mnemonic tokens shape os, lineTokens line = mnemonic :: tokens ∧ shapeOf mnemonic = some shape ∧
      parseOperands tokens = .ok os ∧ shape.instr os = .ok i := by
  unfold assembleLine at h
  split at h
  · cases h
  · split at h
    · cases h
    · split at h
      · cases h
      · split at h
        · cases h
        · split at h
          · cases h
          · cases h
            exact ⟨_, _, _, _, by assumption, by assumption, by assumption, by assumption⟩

end Sys2Proof.Machine
end

