-- ==== Sys2Proof/Laws/Decode.lean ====
section
/-! SUPPORT. The fields of a word and the encoder's formula as arithmetic (R61). -/

namespace Sys2Proof

theorem opcodeField_toNat (w : Word) : (opcodeField w).toNat = w.toNat / 4096 := by
  have h := w.isLt
  simp only [opcodeField, BitVec.extractLsb'_toNat, Nat.shiftRight_eq_div_pow]
  omega

theorem registerField_toNat (w : Word) : (registerField w).toNat = w.toNat / 1024 % 4 := by
  simp only [registerField, BitVec.extractLsb'_toNat, Nat.shiftRight_eq_div_pow]

theorem dataField_toNat (w : Word) : (dataField w).toNat = w.toNat % 1024 := by
  simp [dataField, BitVec.extractLsb'_toNat]

theorem secondField_toNat (w : Word) : (secondField w).toNat = w.toNat % 4 := by
  simp [secondField, BitVec.extractLsb'_toNat]

theorem Reg.index_lt (r : Reg) : r.index < 4 := by cases r <;> decide

@[simp] theorem Reg.ofBits_index (r : Reg) : Reg.ofBits (BitVec.ofNat 2 r.index) = r := by cases r <;> decide

/-- The word of R61's formula, as a number. -/
theorem encodeWord_toNat (op reg data : Nat) :
    (encodeWord op reg data).toNat = op % 16 * 4096 + reg % 4 * 1024 + data % 1024 := by
  have h1 : op &&& 0xF = op % 16 := Nat.and_two_pow_sub_one_eq_mod op 4
  have h2 : reg &&& 0x3 = reg % 4 := Nat.and_two_pow_sub_one_eq_mod reg 2
  have h3 : data &&& 0x3FF = data % 1024 := Nat.and_two_pow_sub_one_eq_mod data 10
  have hr : reg % 4 < 2 ^ 2 := Nat.mod_lt _ (by decide)
  have hd : data % 1024 < 2 ^ 10 := Nat.mod_lt _ (by decide)
  have e1 : (op % 16) <<< 12 ||| (reg % 4) <<< 10 = ((op % 16) <<< 2 + reg % 4) <<< 10 := by
    rw [Nat.shiftLeft_add_eq_or_of_lt hr, Nat.shiftLeft_or_distrib, ← Nat.shiftLeft_add]
  unfold encodeWord
  rw [h1, h2, h3, e1, ← Nat.shiftLeft_add_eq_or_of_lt hd, BitVec.toNat_ofNat, Nat.shiftLeft_eq, Nat.shiftLeft_eq]
  omega

end Sys2Proof
end

