-- ==== Sys2Proof/Laws/Memory.lean ====
section
/-! SUPPORT. Reading after writing, what a write leaves alone, and that every memory operation keeps the canonical form. -/

namespace Sys2Proof.Machine

/-! ### Bytes -/

@[simp] theorem Memory.get_cons_same (m : Memory) (a : Nat) (b : Byte) (h : Memory.get m a = unlistedByte) :
    (Memory.cons a b m).get a = b := by
  unfold Memory.cons
  split
  · simp_all
  · simp [Memory.get]

theorem Memory.get_cons_other (m : Memory) {a c : Nat} (b : Byte) (h : c ≠ a) : (Memory.cons a b m).get c = m.get c := by
  unfold Memory.cons
  split
  · rfl
  · simp [Memory.get, Ne.symm h]

/-- Below the first address a canonical memory lists nothing. -/
theorem Memory.get_of_lt {low : Nat} {m : Memory} (h : Memory.wfFrom low m = true) {a : Nat} (ha : a < low) :
    m.get a = unlistedByte := by
  induction m generalizing low with
  | nil => rfl
  | cons cell rest ih =>
    obtain ⟨k, b⟩ := cell
    simp only [Memory.wfFrom, Bool.and_eq_true, decide_eq_true_eq] at h
    have hk : k ≠ a := by omega
    simp only [Memory.get, if_neg hk]
    exact ih h.2 (by omega)

theorem Memory.wfFrom_mono {low low' : Nat} {m : Memory} (h : Memory.wfFrom low m = true) (hl : low' ≤ low) :
    Memory.wfFrom low' m = true := by
  cases m with
  | nil => rfl
  | cons cell rest =>
    obtain ⟨k, b⟩ := cell
    simp only [Memory.wfFrom, Bool.and_eq_true, decide_eq_true_eq] at h ⊢
    exact ⟨⟨⟨by omega, h.1.1.2⟩, h.1.2⟩, h.2⟩

theorem Memory.cons_wfFrom {low a : Nat} {b : Byte} {m : Memory} (hl : low ≤ a) (ha : a < Config.memBytes)
    (h : Memory.wfFrom (a + 1) m = true) : Memory.wfFrom low (Memory.cons a b m) = true := by
  unfold Memory.cons
  split
  · exact Memory.wfFrom_mono h (by omega)
  · rename_i hb
    simp only [Memory.wfFrom, Bool.and_eq_true, decide_eq_true_eq]
    exact ⟨⟨⟨hl, ha⟩, hb⟩, h⟩

theorem Memory.put_wfFrom {low a : Nat} {b : Byte} {m : Memory} (h : Memory.wfFrom low m = true) (hl : low ≤ a)
    (ha : a < Config.memBytes) : Memory.wfFrom low (m.put a b) = true := by
  induction m generalizing low with
  | nil => exact Memory.cons_wfFrom hl ha rfl
  | cons cell rest ih =>
    obtain ⟨k, c⟩ := cell
    have h' := h
    simp only [Memory.wfFrom, Bool.and_eq_true, decide_eq_true_eq] at h'
    obtain ⟨⟨⟨hk, hk'⟩, hc⟩, hrest⟩ := h'
    simp only [Memory.put]
    split
    · refine Memory.cons_wfFrom hl ha ?_
      simp only [Memory.wfFrom, Bool.and_eq_true, decide_eq_true_eq]
      exact ⟨⟨⟨by omega, hk'⟩, hc⟩, hrest⟩
    · split
      · rename_i _ hak
        exact Memory.cons_wfFrom hl ha (hak ▸ hrest)
      · simp only [Memory.wfFrom, Bool.and_eq_true, decide_eq_true_eq]
        exact ⟨⟨⟨hk, hk'⟩, hc⟩, ih hrest (by omega)⟩

/-- A write keeps the canonical form. -/
theorem Memory.put_wf {a : Nat} {b : Byte} {m : Memory} (h : m.wf = true) (ha : a < Config.memBytes) :
    (m.put a b).wf = true :=
  Memory.put_wfFrom h (Nat.zero_le a) ha

theorem Memory.get_put_same_from {low a : Nat} {b : Byte} {m : Memory} (h : Memory.wfFrom low m = true) :
    (m.put a b).get a = b := by
  induction m generalizing low with
  | nil => exact Memory.get_cons_same [] a b rfl
  | cons cell rest ih =>
    obtain ⟨k, c⟩ := cell
    have h' := h
    simp only [Memory.wfFrom, Bool.and_eq_true, decide_eq_true_eq] at h'
    simp only [Memory.put]
    split
    · rename_i hak
      refine Memory.get_cons_same _ a b ?_
      simp only [Memory.get, if_neg (show k ≠ a by omega)]
      exact Memory.get_of_lt h'.2 (by omega)
    · split
      · exact Memory.get_cons_same _ a b (Memory.get_of_lt h'.2 (by omega))
      · rename_i _ hak
        simp only [Memory.get, if_neg (Ne.symm hak)]
        exact ih h'.2

/-- A read after a write to the same address gives the byte written. -/
theorem Memory.get_put_same {a : Nat} {b : Byte} {m : Memory} (h : m.wf = true) : (m.put a b).get a = b :=
  Memory.get_put_same_from h

/-- A write leaves every other address alone. -/
theorem Memory.get_put_other (m : Memory) {a c : Nat} (b : Byte) (h : c ≠ a) : (m.put a b).get c = m.get c := by
  induction m with
  | nil => exact Memory.get_cons_other [] b h
  | cons cell rest ih =>
    obtain ⟨k, d⟩ := cell
    simp only [Memory.put]
    split
    · exact Memory.get_cons_other _ b h
    · split
      · rename_i _ hak
        rw [Memory.get_cons_other _ b h]
        simp only [Memory.get, if_neg (show k ≠ c from fun e => h (by omega))]
      · simp only [Memory.get, ih]

/-! ### The accesses, each said once -/

theorem Memory.readByte_of_lt {m : Memory} {a : Nat} (h : a < Config.memBytes) : m.readByte a = .ok (m.get a) := by
  simp [Memory.readByte, h]

theorem Memory.readByte_of_ge {m : Memory} {a : Nat} (h : Config.memBytes ≤ a) : m.readByte a = .error (.noSuchAddress a) := by
  simp [Memory.readByte, Nat.not_lt.mpr h]

theorem Memory.readWord_of_lt {m : Memory} {a : Nat} (h : a + 1 < Config.memBytes) :
    m.readWord a = .ok (wordOfBytes (m.get a) (m.get (a + 1))) := by
  simp [Memory.readWord, Memory.readByte_of_lt h, Memory.readByte_of_lt (Nat.lt_of_succ_lt h)]

theorem Memory.writeWord_of_lt {m : Memory} {a : Nat} {w : Word} (h : a + 1 < Config.memBytes) :
    m.writeWord a w = .ok ((m.put a (highByte w)).put (a + 1) (lowByte w)) := by
  simp [Memory.writeWord, Memory.writeByte, h, Nat.lt_of_succ_lt h]

theorem Memory.writeByte_wf {m m' : Memory} {a : Nat} {b : Byte} (h : m.wf = true) (hw : m.writeByte a b = .ok m') :
    m'.wf = true := by
  unfold Memory.writeByte at hw
  split at hw
  · rename_i ha
    cases hw
    exact Memory.put_wf h ha
  · cases hw

theorem Memory.writeWord_wf {m m' : Memory} {a : Nat} {w : Word} (h : m.wf = true) (hw : m.writeWord a w = .ok m') :
    m'.wf = true := by
  unfold Memory.writeWord at hw
  split at hw
  · cases hw
  · rename_i m1 h1
    exact Memory.writeByte_wf (Memory.writeByte_wf h h1) hw

theorem Memory.writeWords_wf {image : List Word} {m m' : Memory} {a : Nat} (h : m.wf = true)
    (hw : m.writeWords a image = .ok m') : m'.wf = true := by
  induction image generalizing m a with
  | nil => cases hw; exact h
  | cons w rest ih =>
    unfold Memory.writeWords at hw
    split at hw
    · cases hw
    · rename_i m1 h1
      exact ih (Memory.writeWord_wf h h1) hw

/-- The load interface keeps the canonical form. -/
theorem boot_wf {image : List Word} {s : State} (h : boot image = .ok s) : s.mem.wf = true := by
  unfold boot at h
  split at h
  · cases h
  · rename_i m hm
    cases h
    exact Memory.writeWords_wf (m := State.reset.mem) rfl hm

theorem fetchPoint_lt (s : State) : s.fetchPoint < fetchLimit := by
  unfold State.fetchPoint
  split
  · assumption
  · decide

theorem placeWord_wf {s : State} {w : Word} (h : s.mem.wf = true) : (s.placeWord w).mem.wf = true := by
  have hp : s.fetchPoint.toNat < 0xFFFE := fetchPoint_lt s
  exact Memory.put_wf (Memory.put_wf h (by unfold Config.memBytes; omega)) (by unfold Config.memBytes; omega)

/-! ### Words and bytes (R42) -/

theorem wordOfBytes_toNat (high low : Byte) : (wordOfBytes high low).toNat = high.toNat * 256 + low.toNat := by
  have hl := low.isLt
  unfold wordOfBytes
  rw [BitVec.toNat_append, Nat.shiftLeft_eq, ← Nat.shiftLeft_eq, ← Nat.shiftLeft_add_eq_or_of_lt hl, Nat.shiftLeft_eq]

theorem highByte_toNat (w : Word) : (highByte w).toNat = w.toNat / 256 := by
  have h := w.isLt
  simp only [highByte, BitVec.extractLsb'_toNat, Nat.shiftRight_eq_div_pow]
  omega

theorem lowByte_toNat (w : Word) : (lowByte w).toNat = w.toNat % 256 := by
  simp [lowByte, BitVec.extractLsb'_toNat]

@[simp] theorem wordOfBytes_highByte_lowByte (w : Word) : wordOfBytes (highByte w) (lowByte w) = w := by
  apply BitVec.eq_of_toNat_eq
  rw [wordOfBytes_toNat, highByte_toNat, lowByte_toNat]
  omega

end Sys2Proof.Machine
end

