-- ==== Sys2Proof/Laws/PerInstr.lean ====
section
/-! SUPPORT. The per-instruction family EncodingShape: each instruction's word lies in its own row of the opcode table,
with that row's unused bits zero (spec 30_encoding.md R62, R66, R85). -/

namespace Sys2Proof.Laws

/-- The instruction has a row of its mnemonic in the opcode table; its word has the row's fixed bits and zeros in the
bits the row's format leaves unused; and the row is no reserved one exactly where the instruction is well formed. -/
def EncodingShape.Statement (i : Instr) : Prop :=
  ∃ row ∈ opcodeTable, row.mnemonic = i.mnemonic ∧ row.matches (encode i) = true ∧
    encode i &&& row.format.unusedBits = 0 ∧ (i.wf = true ↔ row.format ≠ .reserved)

/-- The word of R61's formula, as its three fields side by side. -/
theorem encodeWord_eq_append (op : BitVec 4) (reg : BitVec 2) (data : BitVec 10) :
    encodeWord op.toNat reg.toNat data.toNat = op ++ reg ++ data := by
  apply BitVec.eq_of_toNat_eq
  have ho := op.isLt
  have hr := reg.isLt
  have hd := data.isLt
  rw [encodeWord_toNat, BitVec.toNat_append, BitVec.toNat_append, ← Nat.shiftLeft_add_eq_or_of_lt hd,
    ← Nat.shiftLeft_add_eq_or_of_lt hr, Nat.shiftLeft_eq, Nat.shiftLeft_eq]
  omega

/-- The bits above the data field do not depend on it. -/
theorem append_and_high (head : BitVec 6) (data : BitVec 10) (mask : BitVec 6) :
    (head ++ data) &&& (mask ++ (0 : BitVec 10)) = (head &&& mask) ++ (0 : BitVec 10) := by
  apply BitVec.eq_of_getLsbD_eq
  intro i hi
  simp only [BitVec.getLsbD_and, BitVec.getLsbD_append]
  split <;> simp

theorem encode_imm_and (op : BitVec 4) (reg : BitVec 2) (data : Imm) (mask : BitVec 6) :
    encodeWord op.toNat reg.toNat data.toNat &&& (mask ++ (0 : BitVec 10)) = ((op ++ reg) &&& mask) ++ (0 : BitVec 10) := by
  rw [encodeWord_eq_append, append_and_high]

theorem EncodingShape.hlt : EncodingShape.Statement .hlt := ⟨_, .head _, by decide⟩

theorem EncodingShape.ldi (rd : Reg) (imm : Imm) : EncodingShape.Statement (.ldi rd imm) := by
  refine ⟨⟨"LDI", .ri, 0x1000, 0xF000⟩, by decide, rfl, ?_, ?_, by simp [Instr.wf]⟩
  · have h (r : BitVec 2) := encode_imm_and 0x1 r imm 0x3C
    cases rd
    · exact beq_iff_eq.mpr (h 0)
    · exact beq_iff_eq.mpr (h 1)
    · exact beq_iff_eq.mpr (h 2)
    · exact beq_iff_eq.mpr (h 3)
  · exact BitVec.and_zero

theorem EncodingShape.jmp (imm : Imm) : EncodingShape.Statement (.jmp imm) :=
  ⟨⟨"JMP", .j, 0x6000, 0xF000⟩, by decide, rfl, beq_iff_eq.mpr (encode_imm_and 0x6 0 imm 0x3C),
    encode_imm_and 0x6 0 imm 0x03, by simp [Instr.wf]⟩

theorem EncodingShape.jz (imm : Imm) : EncodingShape.Statement (.jz imm) :=
  ⟨⟨"JZ", .j, 0x7000, 0xF000⟩, by decide, rfl, beq_iff_eq.mpr (encode_imm_and 0x7 0 imm 0x3C),
    encode_imm_and 0x7 0 imm 0x03, by simp [Instr.wf]⟩

theorem EncodingShape.jnz (imm : Imm) : EncodingShape.Statement (.jnz imm) :=
  ⟨⟨"JNZ", .j, 0x8000, 0xF000⟩, by decide, rfl, beq_iff_eq.mpr (encode_imm_and 0x8 0 imm 0x3C),
    encode_imm_and 0x8 0 imm 0x03, by simp [Instr.wf]⟩

theorem EncodingShape.add (rd rs : Reg) : EncodingShape.Statement (.add rd rs) :=
  ⟨⟨"ADD", .rr, 0x2000, 0xF000⟩, by decide, rfl, by cases rd <;> cases rs <;> decide⟩

theorem EncodingShape.cmp (rd rs : Reg) : EncodingShape.Statement (.cmp rd rs) :=
  ⟨⟨"CMP", .rr, 0x3000, 0xF000⟩, by decide, rfl, by cases rd <;> cases rs <;> decide⟩

theorem EncodingShape.sub (rd rs : Reg) : EncodingShape.Statement (.sub rd rs) :=
  ⟨⟨"SUB", .rr, 0x5000, 0xF000⟩, by decide, rfl, by cases rd <;> cases rs <;> decide⟩

theorem EncodingShape.inp (rd : Reg) : EncodingShape.Statement (.inp rd) :=
  ⟨⟨"INP", .r, 0x9000, 0xF000⟩, by decide, rfl, by cases rd <;> decide⟩

theorem EncodingShape.grt (rd rs : Reg) : EncodingShape.Statement (.grt rd rs) :=
  ⟨⟨"GRT", .rr, 0xA000, 0xF000⟩, by decide, rfl, by cases rd <;> cases rs <;> decide⟩

theorem EncodingShape.gre (rd rs : Reg) : EncodingShape.Statement (.gre rd rs) :=
  ⟨⟨"GRE", .rr, 0xB000, 0xF000⟩, by decide, rfl, by cases rd <;> cases rs <;> decide⟩

theorem EncodingShape.les (rd rs : Reg) : EncodingShape.Statement (.les rd rs) :=
  ⟨⟨"LES", .rr, 0xC000, 0xF000⟩, by decide, rfl, by cases rd <;> cases rs <;> decide⟩

theorem EncodingShape.lee (rd rs : Reg) : EncodingShape.Statement (.lee rd rs) :=
  ⟨⟨"LEE", .rr, 0xD000, 0xF000⟩, by decide, rfl, by cases rd <;> cases rs <;> decide⟩

theorem EncodingShape.out (rd : Reg) : EncodingShape.Statement (.out rd) :=
  ⟨⟨"OUT", .r, 0xE000, 0xF000⟩, by decide, rfl, by cases rd <;> decide⟩

theorem EncodingShape.reserved4 : EncodingShape.Statement .reserved4 :=
  ⟨⟨"reserved_0x4", .reserved, 0x4000, 0xF000⟩, by decide, rfl, by decide⟩

theorem EncodingShape.reservedF : EncodingShape.Statement .reservedF :=
  ⟨⟨"reserved_0xF", .reserved, 0xF000, 0xF000⟩, by decide, rfl, by decide⟩

end Sys2Proof.Laws
end

