-- ==== Sys2Proof/Laws/State.lean ====
section
/-! SUPPORT. What each update does to each field of the state, and what the shared endings of the meanings come to. -/

namespace Sys2Proof.Machine

variable (s : State)

/-! ### One lemma for each field and each update -/

@[simp] theorem State.writeReg_mem (r : Reg) (v : Word) : (s.writeReg r v).mem = s.mem := rfl
@[simp] theorem State.writeReg_regs (r : Reg) (v : Word) : (s.writeReg r v).regs = s.regs.set r v := rfl
@[simp] theorem State.writeReg_pc (r : Reg) (v : Word) : (s.writeReg r v).pc = s.pc := rfl
@[simp] theorem State.writeReg_z (r : Reg) (v : Word) : (s.writeReg r v).z = s.z := rfl
@[simp] theorem State.writeReg_run (r : Reg) (v : Word) : (s.writeReg r v).run = s.run := rfl
@[simp] theorem State.writeReg_inputWait (r : Reg) (v : Word) : (s.writeReg r v).inputWait = s.inputWait := rfl
@[simp] theorem State.writeReg_input (r : Reg) (v : Word) : (s.writeReg r v).input = s.input := rfl
@[simp] theorem State.writeReg_inputTaken (r : Reg) (v : Word) : (s.writeReg r v).inputTaken = s.inputTaken := rfl
@[simp] theorem State.writeReg_output (r : Reg) (v : Word) : (s.writeReg r v).output = s.output := rfl

@[simp] theorem State.setZ_mem (b : Bool) : (s.setZ b).mem = s.mem := rfl
@[simp] theorem State.setZ_regs (b : Bool) : (s.setZ b).regs = s.regs := rfl
@[simp] theorem State.setZ_pc (b : Bool) : (s.setZ b).pc = s.pc := rfl
@[simp] theorem State.setZ_z (b : Bool) : (s.setZ b).z = b := rfl
@[simp] theorem State.setZ_run (b : Bool) : (s.setZ b).run = s.run := rfl
@[simp] theorem State.setZ_inputWait (b : Bool) : (s.setZ b).inputWait = s.inputWait := rfl
@[simp] theorem State.setZ_input (b : Bool) : (s.setZ b).input = s.input := rfl
@[simp] theorem State.setZ_inputTaken (b : Bool) : (s.setZ b).inputTaken = s.inputTaken := rfl
@[simp] theorem State.setZ_output (b : Bool) : (s.setZ b).output = s.output := rfl

@[simp] theorem State.halt_mem (reason : HaltReason) : (s.halt reason).mem = s.mem := rfl
@[simp] theorem State.halt_regs (reason : HaltReason) : (s.halt reason).regs = s.regs := rfl
@[simp] theorem State.halt_pc (reason : HaltReason) : (s.halt reason).pc = s.pc := rfl
@[simp] theorem State.halt_z (reason : HaltReason) : (s.halt reason).z = s.z := rfl
@[simp] theorem State.halt_run (reason : HaltReason) : (s.halt reason).run = .halted reason := rfl
@[simp] theorem State.halt_inputWait (reason : HaltReason) : (s.halt reason).inputWait = s.inputWait := rfl
@[simp] theorem State.halt_input (reason : HaltReason) : (s.halt reason).input = s.input := rfl
@[simp] theorem State.halt_inputTaken (reason : HaltReason) : (s.halt reason).inputTaken = s.inputTaken := rfl
@[simp] theorem State.halt_output (reason : HaltReason) : (s.halt reason).output = s.output := rfl

@[simp] theorem State.sequence_mem (q : Sequel) : (s.sequence q).mem = s.mem := rfl
@[simp] theorem State.sequence_regs (q : Sequel) : (s.sequence q).regs = s.regs := rfl
@[simp] theorem State.sequence_pc (q : Sequel) : (s.sequence q).pc = q.nextPc s.pc := rfl
@[simp] theorem State.sequence_z (q : Sequel) : (s.sequence q).z = s.z := rfl
@[simp] theorem State.sequence_run (q : Sequel) : (s.sequence q).run = s.run := rfl
@[simp] theorem State.sequence_inputWait (q : Sequel) : (s.sequence q).inputWait = s.inputWait := rfl
@[simp] theorem State.sequence_input (q : Sequel) : (s.sequence q).input = s.input := rfl
@[simp] theorem State.sequence_inputTaken (q : Sequel) : (s.sequence q).inputTaken = s.inputTaken := rfl
@[simp] theorem State.sequence_output (q : Sequel) : (s.sequence q).output = s.output := rfl

@[simp] theorem State.takeAnswer_mem (rest : List InputAnswer) : (s.takeAnswer rest).mem = s.mem := rfl
@[simp] theorem State.takeAnswer_regs (rest : List InputAnswer) : (s.takeAnswer rest).regs = s.regs := rfl
@[simp] theorem State.takeAnswer_pc (rest : List InputAnswer) : (s.takeAnswer rest).pc = s.pc := rfl
@[simp] theorem State.takeAnswer_z (rest : List InputAnswer) : (s.takeAnswer rest).z = s.z := rfl
@[simp] theorem State.takeAnswer_run (rest : List InputAnswer) : (s.takeAnswer rest).run = s.run := rfl
@[simp] theorem State.takeAnswer_inputWait (rest : List InputAnswer) : (s.takeAnswer rest).inputWait = false := rfl
@[simp] theorem State.takeAnswer_input (rest : List InputAnswer) : (s.takeAnswer rest).input = rest := rfl
@[simp] theorem State.takeAnswer_inputTaken (rest : List InputAnswer) : (s.takeAnswer rest).inputTaken = s.inputTaken + 1 := rfl
@[simp] theorem State.takeAnswer_output (rest : List InputAnswer) : (s.takeAnswer rest).output = s.output := rfl

@[simp] theorem State.awaitInput_mem : (s.awaitInput).mem = s.mem := rfl
@[simp] theorem State.awaitInput_regs : (s.awaitInput).regs = s.regs := rfl
@[simp] theorem State.awaitInput_pc : (s.awaitInput).pc = s.pc := rfl
@[simp] theorem State.awaitInput_z : (s.awaitInput).z = s.z := rfl
@[simp] theorem State.awaitInput_run : (s.awaitInput).run = s.run := rfl
@[simp] theorem State.awaitInput_inputWait : (s.awaitInput).inputWait = true := rfl
@[simp] theorem State.awaitInput_input : (s.awaitInput).input = s.input := rfl
@[simp] theorem State.awaitInput_inputTaken : (s.awaitInput).inputTaken = s.inputTaken := rfl
@[simp] theorem State.awaitInput_output : (s.awaitInput).output = s.output := rfl

@[simp] theorem State.outputWrite_mem (v : Word) : (s.outputWrite v).mem = s.mem := rfl
@[simp] theorem State.outputWrite_regs (v : Word) : (s.outputWrite v).regs = s.regs := rfl
@[simp] theorem State.outputWrite_pc (v : Word) : (s.outputWrite v).pc = s.pc := rfl
@[simp] theorem State.outputWrite_z (v : Word) : (s.outputWrite v).z = s.z := rfl
@[simp] theorem State.outputWrite_run (v : Word) : (s.outputWrite v).run = s.run := rfl
@[simp] theorem State.outputWrite_inputWait (v : Word) : (s.outputWrite v).inputWait = s.inputWait := rfl
@[simp] theorem State.outputWrite_input (v : Word) : (s.outputWrite v).input = s.input := rfl
@[simp] theorem State.outputWrite_inputTaken (v : Word) : (s.outputWrite v).inputTaken = s.inputTaken := rfl
@[simp] theorem State.outputWrite_output (v : Word) : (s.outputWrite v).output = s.output ++ [v] := rfl

@[simp] theorem State.answer_mem (a : InputAnswer) : (s.answer a).mem = s.mem := rfl
@[simp] theorem State.answer_regs (a : InputAnswer) : (s.answer a).regs = s.regs := rfl
@[simp] theorem State.answer_pc (a : InputAnswer) : (s.answer a).pc = s.pc := rfl
@[simp] theorem State.answer_z (a : InputAnswer) : (s.answer a).z = s.z := rfl
@[simp] theorem State.answer_run (a : InputAnswer) : (s.answer a).run = s.run := rfl
@[simp] theorem State.answer_inputWait (a : InputAnswer) : (s.answer a).inputWait = s.inputWait := rfl
@[simp] theorem State.answer_input (a : InputAnswer) : (s.answer a).input = s.input ++ [a] := rfl
@[simp] theorem State.answer_inputTaken (a : InputAnswer) : (s.answer a).inputTaken = s.inputTaken := rfl
@[simp] theorem State.answer_output (a : InputAnswer) : (s.answer a).output = s.output := rfl

@[simp] theorem State.placeWord_mem (w : Word) : (s.placeWord w).mem = (s.mem.put s.fetchPoint.toNat (highByte w)).put (s.fetchPoint.toNat + 1) (lowByte w) := rfl
@[simp] theorem State.placeWord_regs (w : Word) : (s.placeWord w).regs = s.regs := rfl
@[simp] theorem State.placeWord_pc (w : Word) : (s.placeWord w).pc = s.fetchPoint := rfl
@[simp] theorem State.placeWord_z (w : Word) : (s.placeWord w).z = s.z := rfl
@[simp] theorem State.placeWord_run (w : Word) : (s.placeWord w).run = .running := rfl
@[simp] theorem State.placeWord_inputWait (w : Word) : (s.placeWord w).inputWait = s.inputWait := rfl
@[simp] theorem State.placeWord_input (w : Word) : (s.placeWord w).input = s.input := rfl
@[simp] theorem State.placeWord_inputTaken (w : Word) : (s.placeWord w).inputTaken = s.inputTaken := rfl
@[simp] theorem State.placeWord_output (w : Word) : (s.placeWord w).output = s.output := rfl

@[simp] theorem Sequel.nextPc_advance (pc : Word) : Sequel.nextPc pc .advance = pc + 2 := rfl
@[simp] theorem Sequel.nextPc_jump (pc t : Word) : Sequel.nextPc pc (.jump t) = t := rfl

/-! ### The shared operations, each said once -/

theorem State.finishArith_eq (rd : Reg) (r : Word) :
    s.finishArith rd r = { s with regs := s.regs.set rd r, z := zeroFlag r, pc := s.pc + 2 } := rfl

theorem State.finishCompare_eq (b : Bool) : s.finishCompare b = { s with z := b, pc := s.pc + 2 } := rfl

theorem State.unknownOpcode_eq (op : Opcode) :
    s.unknownOpcode op = { s with run := .halted (.unknownOpcode op), pc := s.pc + 2 } := rfl

theorem State.acceptAnswer_value (rd : Reg) (v : Int) :
    s.acceptAnswer rd (.value v) = s.writeReg rd (truncateInput v) := rfl

theorem State.acceptAnswer_parseFailure (rd : Reg) : s.acceptAnswer rd .parseFailure = s := rfl

theorem State.inputRead_nil {s : State} (h : s.input = []) : s.inputRead = none := by
  simp [State.inputRead, h]

theorem State.inputRead_cons {s : State} {a : InputAnswer} {rest : List InputAnswer} (h : s.input = a :: rest) :
    s.inputRead = some (a, s.takeAnswer rest) := by
  simp [State.inputRead, h]

/-- What reading the input channel can answer. -/
theorem State.inputRead_eq_some {s s' : State} {a : InputAnswer} (h : s.inputRead = some (a, s')) :
    ∃ rest, s.input = a :: rest ∧ s' = s.takeAnswer rest := by
  unfold State.inputRead at h
  split at h
  · cases h
  · rename_i b rest hin
    cases h
    exact ⟨rest, hin, rfl⟩

theorem jumpIf_true (imm : Imm) : jumpIf true imm = .jump (jumpTarget imm) := rfl
theorem jumpIf_false (imm : Imm) : jumpIf false imm = .advance := rfl

/-! ### Registers (R21) -/

@[simp] theorem RegFile.get_set_same (x : RegFile) (r : Reg) (v : Word) : (x.set r v).get r = v := by
  cases r <;> rfl

theorem RegFile.get_set_other (x : RegFile) {r q : Reg} (v : Word) (h : q ≠ r) : (x.set r v).get q = x.get q := by
  cases r <;> cases q <;> first | rfl | exact absurd rfl h

/-- Two register files that agree in every register are equal. -/
theorem RegFile.ext_get {x y : RegFile} (h : ∀ r, x.get r = y.get r) : x = y := by
  have h0 := h .r0
  have h1 := h .r1
  have h2 := h .r2
  have h3 := h .r3
  cases x
  cases y
  simp_all [RegFile.get]

/-! ### Values -/

theorem immValue_toNat (imm : Imm) : (immValue imm).toNat = imm.toNat := by
  simp [immValue]
  omega

theorem jumpTarget_le (imm : Imm) : (jumpTarget imm).toNat ≤ 0x3FF := by
  have h := imm.isLt
  have h' : (jumpTarget imm).toNat = imm.toNat := immValue_toNat imm
  omega

theorem zeroFlag_iff (r : Word) : zeroFlag r = true ↔ r.toNat = 0 := by
  simp [zeroFlag, BitVec.toNat_eq]

end Sys2Proof.Machine
end

