-- ==== Sys2Proof/Laws/Step.lean ====
section
/-! SUPPORT. What a fetch and a step can do, said once. -/

namespace Sys2Proof.Machine

/-- A fetch reads a word exactly below the bound, and then the two bytes at `pc` (R43, R44). -/
theorem State.fetch_of_lt {s : State} (h : s.pc < fetchLimit) :
    s.fetch = .word (wordOfBytes (s.mem.get s.pc.toNat) (s.mem.get (s.pc.toNat + 1))) := by
  have hp : s.pc.toNat < 0xFFFE := h
  have hb : s.pc.toNat + 1 < Config.memBytes := by unfold Config.memBytes; omega
  simp [State.fetch, h, Memory.readWord_of_lt hb]

theorem State.fetch_of_ge {s : State} (h : ¬ s.pc < fetchLimit) : s.fetch = .raises .addressOutOfRange := by
  simp [State.fetch, h]

/-- The fetch bound keeps every fetch inside memory. -/
theorem State.fetch_ne_faults (s : State) (f : Fault) : s.fetch ≠ .faults f := by
  by_cases h : s.pc < fetchLimit
  · simp [State.fetch_of_lt h]
  · simp [State.fetch_of_ge h]

/-- The cases of a step that answers a next state: it halts at the fetch bound, or it runs the fetched instruction. -/
theorem step_next_cases {s t : State} (h : step s = .next t) :
    s.run = .running ∧
      ((¬ s.pc < fetchLimit ∧ t = s.halt .addressOutOfRange) ∨
        (s.pc < fetchLimit ∧ ∃ w, s.fetch = .word w ∧ exec (decode w) s = .next t)) := by
  unfold step at h
  split at h
  · cases h
  · rename_i hrun
    refine ⟨hrun, ?_⟩
    by_cases hp : s.pc < fetchLimit
    · rw [State.fetch_of_lt hp] at h
      exact .inr ⟨hp, _, State.fetch_of_lt hp, h⟩
    · rw [State.fetch_of_ge hp] at h
      cases h
      exact .inl ⟨hp, rfl⟩

theorem step_of_fetch {s : State} {w : Word} (hrun : s.run = .running) (hw : s.fetch = .word w) :
    step s = exec (decode w) s := by
  simp [step, hrun, hw]

/-- An induction over the steps of a run: what holds at its first state and is kept by each step holds at its last. -/
theorem StepsTo.induct {P : State → Prop} {s t : State} (h : StepsTo s t) (base : P s)
    (keep : ∀ u v, P u → step u = .next v → P v) : P t := by
  induction h with
  | refl => exact base
  | tail _ last ih => exact keep _ _ ih last

/-- A run of the host's machine, one step taken off. -/
theorem core_run_succ {n : Nat} {s t : State} (h : step s = .next t) :
    Host.Core.run Sys2Proof.core (n + 1) s = Host.Core.run Sys2Proof.core n t := by
  have hrun (M : Host.Core) (s t : M.State) (h : M.step s = .next t) : M.run (n + 1) s = M.run n t := by
    simp only [Host.Core.run, h]
  exact hrun Sys2Proof.core s t h

/-- `withFetchWord` does what it is for: the next step runs the instruction placed. -/
theorem step_placeWord {s : State} {w : Word} (h : s.mem.wf = true) :
    step (s.placeWord w) = exec (decode w) (s.placeWord w) := by
  have hp : (s.placeWord w).pc < fetchLimit := fetchPoint_lt s
  have hlt : s.fetchPoint.toNat < 0xFFFE := fetchPoint_lt s
  have hm : s.fetchPoint.toNat < Config.memBytes := by unfold Config.memBytes; omega
  refine step_of_fetch rfl ?_
  rw [State.fetch_of_lt hp]
  simp only [State.placeWord_pc, State.placeWord_mem]
  rw [Memory.get_put_same (Memory.put_wf h hm), Memory.get_put_other _ _ (by omega), Memory.get_put_same h,
    wordOfBytes_highByte_lowByte]

end Sys2Proof.Machine
end

