-- ==== Sys2Proof/Tests/Slice0.lean ====
section
/-! SUPPORT. The model's own tests: words and results taken from spec/95_test_vectors.md and from the examples of the
instruction rules, and a witness for the hypotheses of each statement that has any. -/

namespace Sys2Proof.Tests

open Sys2Proof Sys2Proof.Machine

/-! ### Well-formedness -/

theorem test_wf_refuses_reserved4 : Instr.wf .reserved4 = false := by decide
theorem test_wf_refuses_reservedF : Instr.wf .reservedF = false := by decide
theorem test_wf_accepts_add : Instr.wf (.add .r3 .r0) = true := by decide
theorem imageWf_replicate (n : Nat) : imageWf (List.replicate n 0) = decide (n ≤ 32768) := by
  simp [imageWf, Config.maxInstructions]
theorem test_imageWf_refuses_too_long : imageWf (List.replicate 32769 0) = false :=
  (imageWf_replicate 32769).trans (by decide)
theorem test_imageWf_accepts_full : imageWf (List.replicate 32768 0) = true :=
  (imageWf_replicate 32768).trans (by decide)

/-! ### Encodings, bit by bit (30_encoding.md R62, R66; 95_test_vectors.md 2.1) -/

theorem test_decode_n : decode 0b0000_0001_0000_0000 = .hlt := by decide
theorem test_decode_ri : decode 0b0001_11_1111111111 = .ldi .r3 1023 := by decide
theorem test_decode_arith : decode 0b0010_00_11111111_01 = .add .r0 .r1 ∧ decode 0b0101_10_00000000_11 = .sub .r2 .r3 := by
  decide
theorem test_decode_compare :
    decode 0b0011_10_00000000_11 = .cmp .r2 .r3 ∧ decode 0b1010_00_00000000_01 = .grt .r0 .r1 ∧
    decode 0b1011_00_00000000_01 = .gre .r0 .r1 ∧ decode 0b1100_11_00000000_10 = .les .r3 .r2 ∧
    decode 0b1101_01_00000000_00 = .lee .r1 .r0 := by decide
theorem test_decode_j :
    decode 0b0110_11_0000010000 = .jmp 16 ∧ decode 0b0111_00_0000000001 = .jz 1 ∧
    decode 0b1000_00_0000000100 = .jnz 4 := by decide
theorem test_decode_r : decode 0b1001_10_1111111111 = .inp .r2 ∧ decode 0b1110_11_0000000000 = .out .r3 := by decide
theorem test_decode_reserved :
    decode 0b0100_000100100011 = .reserved4 ∧ decode 0b1111_111111111111 = .reservedF := by decide
theorem test_encode :
    encode (.ldi .r0 7) = 0x1007 ∧ encode (.add .r3 .r2) = 0x2C02 ∧ encode (.jmp 1023) = 0x63FF ∧
    encode (.out .r1) = 0xE400 ∧ encode (.lee .r1 .r0) = 0xD400 := by decide
theorem test_encodeWord_masks : encodeWord 0x11 5 1024 = 0x1400 := by decide
theorem test_decodeTableWord : decodeTableWord 16 0x2C02 = some (.add .r3 .r2) := by decide
theorem test_decodeBytes_truncated : decodeBytes [0x10] = .error .truncated := rfl
theorem test_opcodeTable_no_overlap :
    opcodeTable.Pairwise (fun a b => a.pattern &&& (a.mask &&& b.mask) ≠ b.pattern &&& (a.mask &&& b.mask)) := by decide

/-! ### One step of each instruction -/

/-- The state after one step, if there is one. -/
def after (s : State) : Option State :=
  match step s with
  | .next t => some t
  | .fault _ => none
  | .refused _ => none

/-- A running state with four register values and the flag, whose next word is `w` at address `pc`. -/
def stateAt (pc w : Word) (x : RegFile) (z : Bool) : State :=
  { State.reset with pc := pc, regs := x, z := z }.placeWord w

theorem test_ldi_max : (after (stateAt 0 0x1FFF ⟨0, 0, 0, 0xFFFF⟩ true)).map (fun t => (t.regs, t.z, t.pc)) =
    some (⟨0, 0, 0, 0x03FF⟩, true, 2) := by decide
theorem test_add_wraps : (after (stateAt 0 0x2001 ⟨0xFFFF, 1, 0, 0⟩ false)).map (fun t => (t.regs, t.z, t.pc)) =
    some (⟨0, 1, 0, 0⟩, true, 2) := by decide
theorem test_add_self : (after (stateAt 0 0x2401 ⟨0, 0x9000, 0, 0⟩ true)).map (fun t => (t.regs, t.z)) =
    some (⟨0, 0x2000, 0, 0⟩, false) := by decide
theorem test_sub_borrows : (after (stateAt 0 0x5001 ⟨0, 1, 0, 0⟩ true)).map (fun t => (t.regs, t.z)) =
    some (⟨0xFFFF, 1, 0, 0⟩, false) := by decide
theorem test_sub_self : (after (stateAt 0 0x5802 ⟨0, 0, 0x1234, 0⟩ false)).map (fun t => (t.regs, t.z)) =
    some (⟨0, 0, 0, 0⟩, true) := by decide

/-- The flag after a compare of x[0] and x[1]. -/
def compared (w a b : Word) : Option Bool := (after (stateAt 0 w ⟨a, b, 0, 0⟩ false)).map (fun t => t.z)

theorem test_cmp : compared 0x3001 5 5 = some true ∧ compared 0x3001 0 0xFFFF = some false := by decide
theorem test_grt : compared 0xA001 0xFFFF 1 = some true ∧ compared 0xA001 5 5 = some false := by decide
theorem test_gre : compared 0xB001 5 5 = some true ∧ compared 0xB001 300 1000 = some false := by decide
theorem test_les : compared 0xC001 0 0xFFFF = some true ∧ compared 0xC001 0xFFFF 1 = some false := by decide
theorem test_lee : compared 0xD001 7 7 = some true ∧ compared 0xD001 0xFFFF 1 = some false := by decide

/-- The pc after a step. -/
def pcAfter (pc w : Word) (z : Bool) : Option Word := (after (stateAt pc w ⟨0, 0, 0, 0⟩ z)).map (fun t => t.pc)

theorem test_jmp : pcAfter 0x0040 0x6010 true = some 0x0010 ∧ pcAfter 0x1000 0x6000 false = some 0 := by decide
theorem test_jz : pcAfter 2 0x7000 false = some 4 ∧ pcAfter 2 0x7000 true = some 0 := by decide
theorem test_jnz : pcAfter 8 0x8006 false = some 6 ∧ pcAfter 8 0x8006 true = some 0xA := by decide
theorem test_hlt : (after (stateAt 0x20 0x0000 ⟨0, 0, 0, 0⟩ false)).map (fun t => (t.run, t.pc)) =
    some (.halted .hlt, 0x22) := by decide
theorem test_reserved4 : (after (stateAt 0x10 0x4FFF ⟨0, 0, 0, 0⟩ false)).map (fun t => (t.run, t.pc)) =
    some (.halted (.unknownOpcode 0x4), 0x12) := by decide
theorem test_reservedF : (after (stateAt 0x10 0xF000 ⟨0, 0, 0, 0⟩ false)).map (fun t => (t.run, t.pc)) =
    some (.halted (.unknownOpcode 0xF), 0x12) := by decide
theorem test_out : (after (stateAt 0 0xEC00 ⟨0, 0, 0, 0xFFFF⟩ false)).map (fun t => (t.output, t.pc)) =
    some ([0xFFFF], 2) := by decide

/-- What `INP R0` does with x[0] = 7 and an answer. -/
def answered (a : InputAnswer) : Option (Word × Word × Nat) :=
  (after ((stateAt 0 0x9000 ⟨7, 0, 0, 0⟩ false).answer a)).map (fun t => (t.regs.r0, t.pc, t.inputTaken))

theorem test_inp_values : answered (.value 70000) = some (4464, 2, 1) ∧ answered (.value (-1)) = some (0xFFFF, 2, 1) := by
  decide
theorem test_inp_parse_failure : answered .parseFailure = some (7, 2, 1) := by decide
theorem test_inp_waits : (after (stateAt 0 0x9400 ⟨0, 7, 0, 0⟩ true)).map (fun t => (t.inputWait, t.pc, t.regs.r1)) =
    some (true, 0, 7) := by decide

/-! ### Fetch (95_test_vectors.md 2.6), load and assembler -/

theorem test_fetch_bound : (after { State.reset with pc := 0xFFFE }).map (fun t => (t.run, t.pc)) =
    some (.halted .addressOutOfRange, 0xFFFE) := by decide
theorem test_fetch_odd_top : (after (stateAt 0xFFFD 0x1001 ⟨0, 0, 0, 0⟩ false)).map (fun t => (t.regs.r0, t.pc)) =
    some (1, 0xFFFF) := by decide
theorem test_fetch_odd_low : (after { State.reset with mem := [(0, 0x60), (1, 0x01)], pc := 1 }).map (fun t => (t.run, t.pc)) =
    some (.halted .hlt, 3) := by decide
theorem test_halted_takes_no_step : after { State.reset with run := .halted .hlt } = none := by decide
theorem test_withFetchWord : (after (State.reset.withFetchWord 16 0x1007)).map (fun t => (t.regs.r0, t.pc)) =
    some (7, 2) := by decide

/-- The image of a source text, if it assembles. -/
def imageOf (text : String) : Option (List Word) :=
  match assemble text.toList with
  | .ok image => some image
  | .error _ => none

/-- The error of a source text, if it does not assemble. -/
def errorOf (text : String) : Option AsmError :=
  match assemble text.toList with
  | .ok _ => none
  | .error e => some e

theorem test_assemble_p1 : imageOf "LDI R0, 5\nLDI R1, 1\nOUT R0\nSUB R0, R1\nJNZ 4\nHLT\n" =
    some [0x1005, 0x1401, 0xE000, 0x5001, 0x8004, 0x0000] := by decide
theorem test_assemble_masks : imageOf "LDI R0, 1024\nLDI R0, -1\nADD R0, 5\nADD R5, R0" =
    some [0x1000, 0x13FF, 0x2001, 0x2400] := by decide
theorem test_assemble_case_and_comment : imageOf "; note\n\nadd r0,r1 ; comment\r\n" = some [0x2001] := by decide
theorem test_assemble_unknown : errorOf "HLT\nFOO R0\n" = some (.unknownInstruction ['F', 'O', 'O']) := by decide
theorem test_assemble_shapes : errorOf "LDI R0" = some .operandParseError ∧ errorOf "JMP R1" = some .operandParseError ∧
    errorOf "HLT 3" = some .operandParseError ∧ errorOf "LDI 3, 3" = some .operandParseError := by decide
theorem test_assemble_tokens : errorOf "OUT R" = some .operandParseError ∧ errorOf "OUT R1x" = some .operandParseError ∧
    errorOf "JMP 0x10" = some .operandParseError ∧ errorOf "JMP -" = some .operandParseError := by decide
theorem test_boot_bytes : ((boot [0x1005, 0x00E0]).toOption).map (fun s => s.mem) =
    some [(0, 0x10), (1, 0x05), (3, 0xE0)] := by decide

/-! ### Witnesses: concrete values that meet the hypotheses of each statement -/

theorem witness_unusedBits :
    (0xFFFF : Word).toNat / 4096 ∈ [0x0, 0x4, 0xF] ∧ (0x0FFF : Word).toNat / 4096 ∈ [0x0, 0x4, 0xF] ∧
    (0x23FD : Word).toNat / 4096 ∈ [0x2, 0x3, 0x5, 0xA, 0xB, 0xC, 0xD] ∧
    (0xDFFF : Word).toNat / 4096 ∈ [0x2, 0x3, 0x5, 0xA, 0xB, 0xC, 0xD] ∧
    (0x6C10 : Word).toNat / 4096 ∈ [0x6, 0x7, 0x8] ∧ (0x9BFF : Word).toNat / 4096 ∈ [0x9, 0xE] := by decide

/-- The last fetch below the bound, at an odd address: `LDI R0, 1` (V-M4). -/
def topState : State := stateAt 0xFFFD 0x1001 ⟨0, 0, 0, 0⟩ false

theorem witness_stepRunsTheDecodedInstruction :
    topState.run = .running ∧ topState.pc.toNat < 0xFFFE ∧
    decodeBytes [topState.mem.get topState.pc.toNat, topState.mem.get (topState.pc.toNat + 1)] = .ok (.ldi .r0 1, []) :=
  ⟨rfl, by decide, rfl⟩

theorem witness_fetchReadsTwoBytes : topState.pc.toNat < 0xFFFE ∧ State.reset.pc.toNat < 0xFFFE := by decide

theorem witness_fetchBound :
    ({ State.reset with pc := 0xFFFE } : State).run = .running ∧ 0xFFFE ≤ ({ State.reset with pc := 0xFFFE } : State).pc.toNat ∧
    0xFFFE ≤ ({ State.reset with pc := 0xFFFF } : State).pc.toNat := by decide

theorem witness_haltedCore :
    (State.reset.halt (.unknownOpcode 0xF)).run = .halted (.unknownOpcode 0xF) ∧
    StepsTo (State.reset.halt (.unknownOpcode 0xF)) (State.reset.halt (.unknownOpcode 0xF)) := ⟨rfl, .refl _⟩

theorem witness_boot : ∃ s, boot [0x1005, 0x0000] = .ok s := ⟨_, rfl⟩

/-- An `INP R2` at address 0, not answered yet. -/
def inpState : State := stateAt 0 0x9800 ⟨0, 0, 7, 0⟩ true

theorem witness_unansweredInp :
    inpState.run = .running ∧ inpState.fetch = .word 0x9800 ∧ decode 0x9800 = .inp .r2 ∧ inpState.input = [] := by decide

/-- A core that waits meets the invariant; so does one that does not. -/
theorem witness_inv : inpState.awaitInput.Inv ∧ topState.Inv :=
  ⟨⟨by decide, fun _ => ⟨rfl, 0x9800, .r2, rfl, by decide⟩⟩, ⟨by decide, fun h => absurd h (by decide)⟩⟩

/-- A state that takes a step: for every statement whose hypothesis is `step s = .next t` or a run of steps. -/
theorem witness_step : ∃ t, step topState = .next t ∧ StepsTo topState t := ⟨_, rfl, .tail (.refl _) rfl⟩

/-- A step for each clause of the statement about pc, at the edges of its range: the bound's two addresses; a jump from
the last fetch; an advance to 0xFFFE and to 0xFFFF (an untaken jump); an INP that waits (R26, R44, R74, R140). -/
theorem witness_pcClauses :
    pcAfter 0xFFFD 0x63FF false = some 0x3FF ∧ pcAfter 0xFFFC 0x7000 true = some 0 ∧ pcAfter 0xFFFD 0x8000 false = some 0 ∧
    pcAfter 0xFFFD 0x7000 false = some 0xFFFF ∧ pcAfter 0xFFFC 0x8000 true = some 0xFFFE ∧
    (after { State.reset with pc := 0xFFFF }).map (fun t => (t.run, t.pc)) = some (.halted .addressOutOfRange, 0xFFFF) ∧
    (after (stateAt 0xFFFD 0x9000 ⟨0, 0, 0, 0⟩ false)).map (fun t => (t.inputWait, t.pc)) = some (true, 0xFFFD) := by decide

/-- Zeroed memory has no jump word at all: its jumps have even targets. -/
theorem witness_evenTargets :
    Memory.evenTargets State.reset.mem ∧ State.reset.pc.toNat % 2 = 0 ∧ StepsTo State.reset State.reset ∧
    (1023 : Imm).toNat % 2 = 1 := by
  refine ⟨fun a w _ hw hop => ?_, by decide, .refl _, by decide⟩
  have hzero : w = 0 := by
    by_cases ha : a + 1 < Config.memBytes
    · rw [Memory.readWord_of_lt ha] at hw
      simp only [Except.ok.injEq] at hw
      refine hw.symm.trans ?_
      show wordOfBytes (Memory.get [] a) (Memory.get [] (a + 1)) = 0
      simp only [Memory.get]
      decide
    · have : Memory.readWord State.reset.mem a = .error (.noSuchAddress a) ∨
          Memory.readWord State.reset.mem a = .error (.noSuchAddress (a + 1)) := by
        unfold Memory.readWord
        by_cases ha' : a < Config.memBytes
        · simp [Memory.readByte_of_lt ha', Memory.readByte_of_ge (Nat.not_lt.mp ha)]
        · simp [Memory.readByte_of_ge (Nat.not_lt.mp ha')]
      rcases this with h | h <;> simp [h] at hw
  subst hzero
  revert hop
  decide

theorem witness_zeroedMemory :
    State.reset.run = .running ∧ State.reset.pc.toNat < 0xFFFE ∧ State.reset.mem.readByte State.reset.pc.toNat = .ok 0 ∧
    State.reset.mem.readByte (State.reset.pc.toNat + 1) = .ok 0 := ⟨rfl, by decide, rfl, rfl⟩

theorem witness_ldi : (0x1FFF : Word).toNat / 4096 = 0x1 ∧ (1023 : Word).toNat = (1023 : Imm).toNat := by decide

/-- Registers at the corners of 95_test_vectors.md 2.2 and 2.3. -/
def cornerState : State := stateAt 0 0 ⟨0xFFFF, 1, 0x8000, 0⟩ false

theorem witness_add :
    (0x2C02 : Word).toNat / 4096 = 0x2 ∧
    (0 : Word).toNat = ((cornerState.regs.get .r0).toNat + (cornerState.regs.get .r1).toNat) % 2 ^ 16 ∧
    (0 : Word).toNat = ((cornerState.regs.get .r2).toNat + (cornerState.regs.get .r2).toNat) % 2 ^ 16 := by decide

theorem witness_sub :
    (0x5803 : Word).toNat / 4096 = 0x5 ∧
    ((0xFFFF : Word).toNat : Int) = ((cornerState.regs.get .r3).toNat - (cornerState.regs.get .r1).toNat : Int) % 2 ^ 16 := by
  decide

theorem witness_compares :
    (0x3002 : Word).toNat / 4096 = 0x3 ∧ (0xA001 : Word).toNat / 4096 = 0xA ∧ (0xB001 : Word).toNat / 4096 = 0xB ∧
    (0xCC02 : Word).toNat / 4096 = 0xC ∧ (0xD400 : Word).toNat / 4096 = 0xD ∧
    0xFFFF = (cornerState.regs.get .r0).toNat ∧ 1 = (cornerState.regs.get .r1).toNat := by decide

theorem witness_jumps :
    (1023 : Imm).toNat = (0x63FF : Word).toNat % 1024 ∧ (0x63FF : Word).toNat / 4096 = 0x6 ∧
    (1 : Imm).toNat = (0x7001 : Word).toNat % 1024 ∧ (0x7001 : Word).toNat / 4096 = 0x7 ∧
    (4 : Imm).toNat = (0x8004 : Word).toNat % 1024 ∧ (0x8004 : Word).toNat / 4096 = 0x8 ∧
    (0x3FF : Word).toNat = (1023 : Imm).toNat := by decide

theorem witness_hlt_out_reserved :
    (0x0100 : Word).toNat / 4096 = 0x0 ∧ (0xE400 : Word).toNat / 4096 = 0xE ∧ (0x4123 : Word).toNat / 4096 = 0x4 ∧
    (0xFFFF : Word).toNat / 4096 = 0xF := by decide

theorem witness_inp :
    (0x9BFF : Word).toNat / 4096 = 0x9 ∧ (inpState.answer (.value 70000)).input = .value 70000 :: [] ∧
    ((4464 : Word).toNat : Int) = 70000 % 2 ^ 16 ∧ (inpState.answer (.value (-1))).input = .value (-1) :: [] ∧
    ((0xFFFF : Word).toNat : Int) = (-1) % 2 ^ 16 ∧
    (inpState.answer .parseFailure).input = .parseFailure :: [] := by decide

/-- An instruction that completes, and one that each of the exchanges leaves out of account. -/
theorem witness_frame : (∃ t, exec (.sub .r0 .r1) cornerState = .next t) ∧
    (∀ imm, Instr.sub .r0 .r1 ≠ .jz imm ∧ Instr.sub .r0 .r1 ≠ .jnz imm) ∧
    (∀ rd, Instr.sub .r0 .r1 ≠ .inp rd ∧ Instr.sub .r0 .r1 ≠ .out rd) := by
  refine ⟨⟨_, rfl⟩, ?_, ?_⟩ <;> intro _ <;> constructor <;> intro h <;> cases h

theorem witness_canonicalMemories :
    Memory.wf [(0, 0x10), (0xFFFF, 1)] = true ∧
    (∀ a : Nat, a < 65536 → Memory.readByte [(0, 0x10), (0xFFFF, 1)] a = Memory.readByte [(0, 0x10), (0xFFFF, 1)] a) :=
  ⟨by decide, fun _ _ => rfl⟩

/-- An image of n words has n words, each the word it is made of: at n = 32768 it fills memory, at 32769 it is too long. -/
theorem replicate_image (n k : Nat) (h : k < n) :
    (List.replicate n (0x1000 : Word)).length = n ∧ (List.replicate n (0x1000 : Word))[k]? = some 0x1000 := by
  simp [h]

theorem witness_wordsAreBigEndian :
    0xFFFE + 1 < 65536 ∧ Memory.wf [(0, 0x10)] = true ∧ Memory.writeWord [(0, 0x10)] 0xFFFE 0x1234 =
      .ok [(0, 0x10), (0xFFFE, 0x12), (0xFFFF, 0x34)] := ⟨by decide, by decide, rfl⟩

theorem witness_bootPlacesTheImage :
    (∃ image : List Word, image.length ≤ 32768 ∧ image[32767]? = some 0x1000) ∧
    (∃ image : List Word, image.length ≤ 32768 ∧ 2 * image.length ≤ 65535) ∧
    (∃ image : List Word, 32768 < image.length) := by
  have full := replicate_image 32768 32767 (by decide)
  have tooLong := replicate_image 32769 0 (by decide)
  exact ⟨⟨_, le_of_eq full.1, full.2⟩, ⟨[0x1005], by decide, by decide⟩, ⟨_, lt_of_lt_of_eq (by decide) tooLong.1.symm⟩⟩

theorem witness_writtenInstructions :
    (∀ i ∈ [Instr.ldi .r3 1023, .jz 0], i.wf = true) ∧ [Instr.ldi .r3 1023, .jz 0].length ≤ 32768 := by decide

theorem witness_assembles : assemble "LDI R3, 1023\nHLT".toList = .ok [0x1FFF, 0x0000] ∧
    ([0x1FFF, 0x0000] : List Word)[1]? = some 0x0000 ∧ 1 < 32767 := ⟨rfl, rfl, by decide⟩

theorem witness_unknownMnemonic :
    sourceLines "HLT\nFOO R0\nHLT".toList = ["HLT".toList] ++ "FOO R0".toList :: ["HLT".toList] ∧
    assembleLines 0 ["HLT".toList] = .ok [.hlt] ∧ isBlankLine "FOO R0".toList = false ∧
    lineTokens "FOO R0".toList = "FOO".toList :: ["R0".toList] ∧
    "FOO".toList.map Char.toUpper ∉ ["HLT", "LDI", "ADD", "CMP", "SUB", "JMP", "JZ", "JNZ", "INP", "GRT", "GRE", "LES", "LEE",
      "OUT"].map String.toList := ⟨by decide, rfl, by decide, by decide, by decide⟩

end Sys2Proof.Tests
end

namespace Sys2Proof

/-! SUPPORT. What the opcode field decides of a decoded word (R66). -/

/-- The decoder chooses the instruction by the opcode field, each code its own (R66). -/
theorem decode_opcode (w : Word) : (decode w).opcode = opcodeField w := by
  simp only [decode, apply_ite Instr.opcode]
  simp only [Instr.opcode]
  generalize opcodeField w = op
  revert op
  decide

/-- The opcode of a decoded word, as a number. -/
theorem decode_opcode_toNat (w : Word) : w.toNat / 4096 = (decode w).opcode.toNat := by
  rw [decode_opcode, opcodeField_toNat]

/-- A word of a jump's opcode decodes to that jump, to the data field. -/
theorem decode_jmp {w : Word} (h : opcodeField w = 0x6) : decode w = .jmp (dataField w) := by
  simp [decode, h]

theorem decode_jz {w : Word} (h : opcodeField w = 0x7) : decode w = .jz (dataField w) := by
  simp [decode, h]

theorem decode_jnz {w : Word} (h : opcodeField w = 0x8) : decode w = .jnz (dataField w) := by
  simp [decode, h]

/-- The immediate of a decoded jump is the data field. -/
theorem dataField_of_decode_jump {w : Word} {imm : Imm}
    (h : decode w = .jmp imm ∨ decode w = .jz imm ∨ decode w = .jnz imm) : dataField w = imm := by
  have hop := decode_opcode w
  rcases h with h | h | h <;> rw [h] at hop
  · exact Instr.jmp.inj ((decode_jmp hop.symm).symm.trans h)
  · exact Instr.jz.inj ((decode_jz hop.symm).symm.trans h)
  · exact Instr.jnz.inj ((decode_jnz hop.symm).symm.trans h)

end Sys2Proof

namespace Sys2Proof.Machine

/-! SUPPORT. `exec` answers a next state for every instruction: that state, its frame, its pc; fetch and step. -/

/-- A write changes the register it names alone. -/
theorem RegFile.eq_of_get_set_ne {x : RegFile} {r q : Reg} {v : Word} (h : (x.set r v).get q ≠ x.get q) : q = r :=
  by_contra fun hq => h (RegFile.get_set_other x v hq)

/-- The next state that `exec` answers (`exec_eq_execute`: it always does). -/
def State.execute (s : State) (i : Instr) : State :=
  match exec i s with
  | .next t => t
  | .fault _ => s
  | .refused _ => s

/-! ### INP, with an answer and without (R31, R161) -/

theorem exec_inp_of_nil {s : State} (h : s.input = []) (rd : Reg) : exec (.inp rd) s = .next s.awaitInput := by
  simp [exec, execInp, State.inputRead_nil h]

theorem exec_inp_of_cons {s : State} {a : InputAnswer} {rest : List InputAnswer} (h : s.input = a :: rest) (rd : Reg) :
    exec (.inp rd) s = .next (((s.takeAnswer rest).acceptAnswer rd a).sequence .advance) := by
  simp [exec, execInp, State.inputRead_cons h]

/-- No instruction faults and none is refused: the core's own errors are next states (R200). -/
theorem exec_eq_execute (i : Instr) (s : State) : exec i s = .next (s.execute i) := by
  cases i with
  | inp rd =>
    unfold State.execute
    cases h : s.input with
    | nil => rw [exec_inp_of_nil h]
    | cons a rest => rw [exec_inp_of_cons h]
  | _ => rfl

/-- The one next state of an instruction, from a given answer of `exec`. -/
theorem eq_execute_of_exec {i : Instr} {s t : State} (h : exec i s = .next t) : t = s.execute i := by
  rw [exec_eq_execute] at h
  exact (Host.Outcome.next.inj h).symm

theorem State.execute_inp_of_nil {s : State} (h : s.input = []) (rd : Reg) : s.execute (.inp rd) = s.awaitInput :=
  (eq_execute_of_exec (exec_inp_of_nil h rd)).symm

theorem State.execute_inp_of_cons {s : State} {a : InputAnswer} {rest : List InputAnswer} (h : s.input = a :: rest)
    (rd : Reg) :
    s.execute (.inp rd) = { s with regs := (s.acceptAnswer rd a).regs, pc := s.pc + 2, input := rest,
                                   inputTaken := s.inputTaken + 1, inputWait := false } := by
  rw [← eq_execute_of_exec (exec_inp_of_cons h rd)]
  cases a <;> rfl

theorem State.execute_inp_pc (s : State) (rd : Reg) :
    (s.execute (.inp rd)).pc = if s.input = [] then s.pc else s.pc + 2 := by
  cases h : s.input with
  | nil => simp [State.execute_inp_of_nil h]
  | cons a rest => simp [State.execute_inp_of_cons h]

/-- What an INP without an answer answers waits. -/
theorem State.execute_inp_inputWait {s : State} (h : s.input = []) (rd : Reg) :
    (s.execute (.inp rd)).inputWait = true := by
  rw [State.execute_inp_of_nil h, State.awaitInput_inputWait]

/-- INP leaves memory, Z, run and the output alone, with an answer and without. -/
theorem State.execute_inp_frame (s : State) (rd : Reg) :
    (s.execute (.inp rd)).mem = s.mem ∧ (s.execute (.inp rd)).z = s.z ∧ (s.execute (.inp rd)).run = s.run ∧
      (s.execute (.inp rd)).output = s.output := by
  cases h : s.input with
  | nil => simp [State.execute_inp_of_nil h]
  | cons a rest => simp [State.execute_inp_of_cons h]

/-- What an INP may write: its destination, of an answer that is a value. -/
theorem State.execute_inp_get_ne {s : State} {rd q : Reg} (h : (s.execute (.inp rd)).regs.get q ≠ s.regs.get q) :
    q = rd ∧ ∃ v rest, s.input = .value v :: rest := by
  cases hin : s.input with
  | nil => exact absurd (by simp [State.execute_inp_of_nil hin]) h
  | cons a rest =>
    rw [State.execute_inp_of_cons hin] at h
    cases a with
    | parseFailure => exact absurd rfl h
    | value v => exact ⟨RegFile.eq_of_get_set_ne h, v, rest, rfl⟩

/-! ### The frame, field by field -/

/-- R41: no instruction writes memory. -/
@[simp] theorem State.execute_mem (s : State) (i : Instr) : (s.execute i).mem = s.mem := by
  cases i with
  | inp rd =>
    obtain ⟨hmem, _, _, _⟩ := s.execute_inp_frame rd
    exact hmem
  | _ => rfl

/-- R23: the registers that instructions write, each its own destination. -/
theorem State.execute_get_ne {s : State} {i : Instr} {q : Reg}
    (h : (s.execute i).regs.get q ≠ s.regs.get q) :
    (∃ imm, i = .ldi q imm) ∨ (∃ rs, i = .add q rs) ∨ (∃ rs, i = .sub q rs) ∨
      (i = .inp q ∧ ∃ v rest, s.input = .value v :: rest) := by
  cases i with
  | ldi rd imm => exact .inl ⟨imm, by rw [RegFile.eq_of_get_set_ne h]⟩
  | add rd rs => exact .inr (.inl ⟨rs, by rw [RegFile.eq_of_get_set_ne h]⟩)
  | sub rd rs => exact .inr (.inr (.inl ⟨rs, by rw [RegFile.eq_of_get_set_ne h]⟩))
  | inp rd =>
    obtain ⟨rfl, hvalue⟩ := State.execute_inp_get_ne h
    exact .inr (.inr (.inr ⟨rfl, hvalue⟩))
  | _ => exact absurd rfl h

/-- R27: the instructions that write Z. -/
theorem State.execute_z_ne {s : State} {i : Instr} (h : (s.execute i).z ≠ s.z) :
    ∃ rd rs, i = .add rd rs ∨ i = .sub rd rs ∨ i = .cmp rd rs ∨ i = .grt rd rs ∨ i = .gre rd rs ∨
      i = .les rd rs ∨ i = .lee rd rs := by
  cases i with
  | add rd rs | sub rd rs | cmp rd rs | grt rd rs | gre rd rs | les rd rs | lee rd rs => exact ⟨rd, rs, by simp⟩
  | inp rd =>
    obtain ⟨_, hz, _, _⟩ := s.execute_inp_frame rd
    exact absurd hz h
  | _ => exact absurd rfl h

/-- R29: the instructions that write run. -/
theorem State.execute_run_ne {s : State} {i : Instr} (h : (s.execute i).run ≠ s.run) :
    i = .hlt ∨ i = .reserved4 ∨ i = .reservedF := by
  cases i with
  | hlt | reserved4 | reservedF => simp
  | inp rd =>
    obtain ⟨_, _, hrun, _⟩ := s.execute_inp_frame rd
    exact absurd hrun h
  | _ => exact absurd rfl h

/-- R162: OUT alone writes the output. -/
theorem State.execute_output_ne {s : State} {i : Instr} (h : (s.execute i).output ≠ s.output) :
    ∃ rd, i = .out rd := by
  cases i with
  | out rd => exact ⟨rd, rfl⟩
  | inp rd =>
    obtain ⟨_, _, _, hout⟩ := s.execute_inp_frame rd
    exact absurd hout h
  | _ => exact absurd rfl h

/-- R31, R161: INP alone writes the answers, their count and the wait. -/
theorem State.execute_input_of_ne_inp (s : State) {i : Instr} (h : ∀ rd, i ≠ .inp rd) :
    (s.execute i).input = s.input ∧ (s.execute i).inputTaken = s.inputTaken ∧
      (s.execute i).inputWait = s.inputWait := by
  cases i with
  | inp rd => exact absurd rfl (h rd)
  | _ => exact ⟨rfl, rfl, rfl⟩

/-! ### The pc (R71, R72) -/

theorem State.execute_jz (s : State) (imm : Imm) : s.execute (.jz imm) = s.sequence (jumpIf s.z imm) := rfl

theorem State.execute_jnz (s : State) (imm : Imm) : s.execute (.jnz imm) = s.sequence (jumpIf (!s.z) imm) := rfl

theorem jumpTarget_toNat (imm : Imm) : (jumpTarget imm).toNat = imm.toNat := immValue_toNat imm

theorem jumpTarget_eq_ofNat (imm : Imm) : jumpTarget imm = BitVec.ofNat 16 imm.toNat := by
  apply BitVec.eq_of_toNat_eq
  have h := imm.isLt
  rw [jumpTarget_toNat, BitVec.toNat_ofNat]
  omega

theorem Sequel.nextPc_jumpIf (pc : Word) (taken : Bool) (imm : Imm) :
    (jumpIf taken imm).nextPc pc = if taken = true then jumpTarget imm else pc + 2 := by
  cases taken <;> rfl

/-- The sequencer's one write of the pc, for every instruction. -/
theorem State.execute_pc (s : State) (i : Instr) :
    (s.execute i).pc =
      match i with
      | .jmp imm => BitVec.ofNat 16 imm.toNat
      | .jz imm => if s.z = true then BitVec.ofNat 16 imm.toNat else s.pc + 2
      | .jnz imm => if s.z = false then BitVec.ofNat 16 imm.toNat else s.pc + 2
      | .inp _ => if s.input = [] then s.pc else s.pc + 2
      | _ => s.pc + 2 := by
  cases i with
  | jmp imm => exact jumpTarget_eq_ofNat imm
  | jz imm => simp [State.execute_jz, Sequel.nextPc_jumpIf, jumpTarget_eq_ofNat]
  | jnz imm => simp [State.execute_jnz, Sequel.nextPc_jumpIf, jumpTarget_eq_ofNat]
  | inp rd => exact s.execute_inp_pc rd
  | _ => rfl

/-- R74: below the fetch bound the advance does not wrap. -/
theorem add_two_toNat_of_lt {pc : Word} (h : pc < fetchLimit) : (pc + 2).toNat = pc.toNat + 2 := by
  unfold fetchLimit at h
  bv_omega

/-! ### Exchanging the flag (R27) -/

theorem State.execute_inp_exchange_z (s : State) (rd : Reg) (b : Bool) :
    State.execute { s with z := b } (.inp rd) = { s.execute (.inp rd) with z := b } := by
  obtain ⟨mem, regs, pc, z, run, inputWait, input, inputTaken, output⟩ := s
  cases input with
  | nil => rfl
  | cons a rest => cases a <;> rfl

/-- An instruction other than JZ and JNZ overwrites an exchanged flag, or leaves it and does the same to the rest. -/
theorem State.execute_exchange_z (s : State) (i : Instr) (b : Bool) (h : ∀ imm, i ≠ .jz imm ∧ i ≠ .jnz imm) :
    State.execute { s with z := b } i = s.execute i ∨
      ((s.execute i).z = s.z ∧ State.execute { s with z := b } i = { s.execute i with z := b }) := by
  cases i with
  | add | sub | cmp | grt | gre | les | lee => exact .inl rfl
  | jz imm => exact absurd rfl (h imm).1
  | jnz imm => exact absurd rfl (h imm).2
  | inp rd =>
    obtain ⟨_, hz, _, _⟩ := s.execute_inp_frame rd
    exact .inr ⟨hz, s.execute_inp_exchange_z rd b⟩
  | _ => exact .inr ⟨rfl, rfl⟩

/-! ### Fetch and step -/

/-- The fetch reads memory at pc and nothing else of the state (R43). -/
theorem State.fetch_congr {s t : State} (hmem : t.mem = s.mem) (hpc : t.pc = s.pc) : t.fetch = s.fetch := by
  simp [State.fetch, hmem, hpc]

/-- The word fetched is the word that memory holds at pc. -/
theorem State.readWord_of_fetch {s : State} {w : Word} (h : s.fetch = .word w) : s.mem.readWord s.pc.toNat = .ok w := by
  unfold State.fetch at h
  split at h
  · split at h
    · rename_i hread
      rw [hread, Fetched.word.inj h]
    · cases h
  · cases h

/-- R59: a halted core's step is refused. -/
theorem step_of_halted {s : State} {reason : HaltReason} (h : s.run = .halted reason) :
    step s = .refused .coreHalted := by
  simp [step, h]

/-- The cases of a step that answers a next state, with the state it answers. -/
theorem step_next_eq {s t : State} (h : step s = .next t) :
    (¬ s.pc < fetchLimit ∧ t = s.halt .addressOutOfRange) ∨
      (s.pc < fetchLimit ∧ ∃ w, s.fetch = .word w ∧ t = s.execute (decode w)) := by
  obtain ⟨_, hbound | ⟨hpc, w, hw, hexec⟩⟩ := step_next_cases h
  · exact .inl hbound
  · exact .inr ⟨hpc, w, hw, eq_execute_of_exec hexec⟩

/-- A step at an INP executes it. -/
theorem step_of_inp {s : State} {w : Word} {rd : Reg} (hrun : s.run = .running) (hw : s.fetch = .word w)
    (hdec : decode w = .inp rd) : step s = .next (s.execute (.inp rd)) := by
  rw [step_of_fetch hrun hw, hdec, exec_eq_execute]

theorem step_of_unanswered_inp {s : State} {w : Word} {rd : Reg} (hrun : s.run = .running) (hw : s.fetch = .word w)
    (hdec : decode w = .inp rd) (hin : s.input = []) : step s = .next s.awaitInput := by
  rw [step_of_inp hrun hw hdec, State.execute_inp_of_nil hin]

/-- R41: memory is constant through a step. -/
theorem step_mem {s t : State} (h : step s = .next t) : t.mem = s.mem := by
  obtain ⟨_, rfl⟩ | ⟨_, w, _, rfl⟩ := step_next_eq h
  · rfl
  · exact s.execute_mem _

/-! ### The pc after the instruction of a word -/

/-- A decoded jump's target is the low ten bits of its word (R140). -/
theorem jumpTarget_toNat_of_decode {w : Word} {imm : Imm}
    (h : decode w = .jmp imm ∨ decode w = .jz imm ∨ decode w = .jnz imm) :
    (jumpTarget imm).toNat = w.toNat % 1024 := by
  rw [jumpTarget_toNat, ← dataField_of_decode_jump h, dataField_toNat]

/-- Below the fetch bound, the pc after the instruction of a word, as a number (R72, R74). -/
theorem State.execute_decode_pc {s : State} (w : Word) (hpc : s.pc < fetchLimit) :
    if w.toNat / 4096 = 0x6 ∨ (w.toNat / 4096 = 0x7 ∧ s.z = true) ∨ (w.toNat / 4096 = 0x8 ∧ s.z = false) then
      (s.execute (decode w)).pc.toNat = w.toNat % 1024
    else if w.toNat / 4096 = 0x9 ∧ s.input = [] then
      (s.execute (decode w)).pc = s.pc ∧ (s.execute (decode w)).inputWait = true
    else (s.execute (decode w)).pc.toNat = s.pc.toNat + 2 := by
  have hadvance := add_two_toNat_of_lt hpc
  have hop := decode_opcode_toNat w
  generalize hi : decode w = i at hop
  cases i with
  | jmp imm =>
    rw [if_pos (.inl hop)]
    exact jumpTarget_toNat_of_decode (.inl hi)
  | jz imm =>
    cases hz : s.z with
    | true =>
      rw [if_pos (.inr (.inl ⟨hop, rfl⟩)), State.execute_jz, hz]
      exact jumpTarget_toNat_of_decode (.inr (.inl hi))
    | false =>
      rw [if_neg (by simp [hop, Instr.opcode]), if_neg (by simp [hop, Instr.opcode]), State.execute_jz, hz]
      exact hadvance
  | jnz imm =>
    cases hz : s.z with
    | false =>
      rw [if_pos (.inr (.inr ⟨hop, rfl⟩)), State.execute_jnz, hz]
      exact jumpTarget_toNat_of_decode (.inr (.inr hi))
    | true =>
      rw [if_neg (by simp [hop, Instr.opcode]), if_neg (by simp [hop, Instr.opcode]), State.execute_jnz, hz]
      exact hadvance
  | inp rd =>
    rw [if_neg (by simp [hop, Instr.opcode]), State.execute_inp_pc]
    by_cases hin : s.input = []
    · rw [if_pos ⟨hop, hin⟩, if_pos hin]
      exact ⟨rfl, State.execute_inp_inputWait hin rd⟩
    · rw [if_neg (fun h => hin h.2), if_neg hin]
      exact hadvance
  | _ =>
    rw [if_neg (by simp [hop, Instr.opcode]), if_neg (by simp [hop, Instr.opcode])]
    exact hadvance

/-! PROOFS. The statements about the state and what leaves it alone (spec 10_state.md). -/

/-- Settles O36: each value is `State.reset`'s, and an address that memory does not list reads as 0. -/
theorem resetState : Obligations.ResetState := by
  have hmem : ∀ a : Nat, a < 65536 → State.reset.mem.readByte a = .ok 0 := fun _ ha => Memory.readByte_of_lt ha
  have hregs : ∀ r : Reg, State.reset.regs.get r = 0 := fun r => by cases r <;> rfl
  exact ⟨hmem, hregs, rfl, rfl, rfl, rfl, rfl, rfl, rfl, rfl⟩

/-- Settles O9: the step is refused, so no run has a last step. -/
theorem haltedCoreStaysAsItIs : Obligations.HaltedCoreStaysAsItIs := by
  intro s reason hrun
  refine ⟨step_of_halted hrun, fun t hsteps => hsteps.induct (P := fun u => u = s) rfl ?_⟩
  rintro u v rfl hstep
  rw [step_of_halted hrun] at hstep
  cases hstep

/-- Settles O16, by the next state of each instruction. -/
theorem sequencerAdvancesOrJumps : Obligations.SequencerAdvancesOrJumps :=
  fun i s => ⟨s.execute i, exec_eq_execute i s, (s.execute_pc i).trans (by cases i <;> rfl)⟩

/-- Settles O14: a step halts at the fetch bound, or it executes the fetched word. -/
theorem pcNeverWraps : Obligations.PcNeverWraps := by
  intro s t hstep
  obtain ⟨hpc, rfl⟩ | ⟨hpc, w, hw, rfl⟩ := step_next_eq hstep
  · exact .inl ⟨Nat.not_lt.mp hpc, rfl, rfl⟩
  · exact .inr ⟨hpc, w, hw, State.execute_decode_pc w hpc⟩

/-- Where the jump words at even addresses have even targets, a step from an even pc ends at one (R26). -/
theorem step_keeps_pc_even {s t : State} (htargets : s.mem.evenTargets) (heven : s.pc.toNat % 2 = 0)
    (hstep : step s = .next t) : t.pc.toNat % 2 = 0 := by
  obtain ⟨_, hpc, _⟩ | ⟨_, w, hw, hpc⟩ := pcNeverWraps s t hstep
  · rw [hpc, heven]
  · have htarget : w.toNat / 4096 = 0x6 ∨ w.toNat / 4096 = 0x7 ∨ w.toNat / 4096 = 0x8 → w.toNat % 2 = 0 := by
      simpa [BitVec.toNat_eq, opcodeField_toNat] using htargets _ w heven (State.readWord_of_fetch hw)
    split_ifs at hpc with hjump hwait
    · have hw_even : w.toNat % 2 = 0 := htarget (by omega)
      omega
    · obtain ⟨hpc, _⟩ := hpc
      rw [hpc, heven]
    · omega

/-- Settles O13: an even pc and even targets are kept by each step; a jump's pc is its immediate. -/
theorem evenPcStaysEvenWithEvenTargets : Obligations.EvenPcStaysEvenWithEvenTargets := by
  constructor
  · intro s t htargets heven hsteps
    refine hsteps.induct (P := fun u => u.pc.toNat % 2 = 0 ∧ u.mem.evenTargets) ⟨heven, htargets⟩ ?_
    rintro u v ⟨hu, htargets⟩ hstep
    exact ⟨step_keeps_pc_even htargets hu hstep, step_mem hstep ▸ htargets⟩
  · intro s imm hodd
    have htarget : (jumpTarget imm).toNat % 2 = 1 := by rw [jumpTarget_toNat, hodd]
    exact ⟨_, exec_eq_execute _ s, htarget⟩

/-- A waiting INP that gets no answer waits on: each step answers the same waiting state. -/
theorem core_run_of_unanswered_inp {s : State} {w : Word} {rd : Reg} (hrun : s.run = .running)
    (hw : s.fetch = .word w) (hdec : decode w = .inp rd) (hin : s.input = []) (n : Nat) :
    Host.Core.run Sys2Proof.core (n + 1) s = .next s.awaitInput := by
  induction n generalizing s with
  | zero => exact core_run_succ (step_of_unanswered_inp hrun hw hdec hin)
  | succ n ih =>
    rw [core_run_succ (step_of_unanswered_inp hrun hw hdec hin)]
    exact ih (s := s.awaitInput) hrun ((State.fetch_congr rfl rfl).trans hw) hin

/-- Settles O26, by induction on the number of steps. -/
theorem unansweredInpWaitsForEver : Obligations.UnansweredInpWaitsForEver :=
  fun _ _ rd hrun hw hdec hin => ⟨exec_inp_of_nil hin rd, core_run_of_unanswered_inp hrun hw hdec hin⟩

/-- Settles O27: INP consumes the answer alike whether the core waited before or not. -/
theorem answerEndsTheWait : Obligations.AnswerEndsTheWait := by
  intro s w rd a hrun hw hdec hin
  have hanswer : (s.answer a).input = a :: [] := by simp [hin]
  have hanswer' : (s.awaitInput.answer a).input = a :: [] := by simp [hin]
  refine ⟨s.awaitInput, (s.answer a).execute (.inp rd), step_of_unanswered_inp hrun hw hdec hin, rfl, ?_, ?_, ?_⟩
  · rw [step_of_inp (s := s.awaitInput.answer a) hrun ((State.fetch_congr rfl rfl).trans hw) hdec,
      State.execute_inp_of_cons hanswer, State.execute_inp_of_cons hanswer']
    cases a <;> rfl
  · exact step_of_inp (s := s.answer a) hrun ((State.fetch_congr rfl rfl).trans hw) hdec
  · simp [State.execute_inp_of_cons hanswer]

/-- Settles O30, the frame field by field. -/
theorem instructionsChangeOnlyTheirOwnState : Obligations.InstructionsChangeOnlyTheirOwnState := by
  intro i s t hexec
  obtain rfl := eq_execute_of_exec hexec
  refine ⟨fun a => by rw [s.execute_mem], fun q => State.execute_get_ne, State.execute_z_ne, State.execute_run_ne,
    State.execute_output_ne, fun hchanged => ?_⟩
  by_contra hinp
  obtain ⟨hinput, htaken, hwait⟩ := s.execute_input_of_ne_inp fun rd hi => hinp ⟨rd, hi⟩
  simp [hinput, htaken, hwait] at hchanged

/-- Settles O31: an exchanged flag is overwritten or left, whatever the instruction. -/
theorem onlyConditionalJumpsReadZ : Obligations.OnlyConditionalJumpsReadZ := by
  intro i s b hi
  refine ⟨_, _, exec_eq_execute i s, exec_eq_execute i _, ?_⟩
  obtain hsame | ⟨hz, hkept⟩ := s.execute_exchange_z i b hi
  · exact ⟨by rw [hsame], .inl (by rw [hsame])⟩
  · exact ⟨by rw [hkept], .inr ⟨hz, by rw [hkept]⟩⟩

end Sys2Proof.Machine

namespace Sys2Proof

/-! SUPPORT. The fields of INP and OUT, and the bytes of a word (spec 20_memory.md R42, 30_encoding.md R61). -/

theorem Reg.index_ofBits (b : BitVec 2) : (Reg.ofBits b).index = b.toNat := by
  revert b
  decide

theorem rdField_index (w : Word) : (rdField w).index = w.toNat / 1024 % 4 := by
  rw [rdField, Reg.index_ofBits, registerField_toNat]

theorem opcodeField_eq_of_toNat {w : Word} {op : Opcode} (h : w.toNat / 4096 = op.toNat) : opcodeField w = op :=
  BitVec.eq_of_toNat_eq ((opcodeField_toNat w).trans h)

/-- A word of INP's or OUT's opcode decodes to it, of the register field. -/
theorem decode_inp {w : Word} (h : opcodeField w = 0x9) : decode w = .inp (rdField w) := by
  simp [decode, h]

theorem decode_out {w : Word} (h : opcodeField w = 0xE) : decode w = .out (rdField w) := by
  simp [decode, h]

theorem decodeBytes_pair (high low : Byte) :
    decodeBytes [high, low] = .ok (decode (wordOfBytes high low), []) := rfl

end Sys2Proof

namespace Sys2Proof.Machine

/-! SUPPORT. Memory's canonical form, words in it, the loader's list of words, the channels. -/

/-! ### Words and bytes (R42) -/

@[simp] theorem highByte_wordOfBytes (high low : Byte) : highByte (wordOfBytes high low) = high := by
  apply BitVec.eq_of_toNat_eq
  have hl := low.isLt
  rw [highByte_toNat, wordOfBytes_toNat]
  omega

@[simp] theorem lowByte_wordOfBytes (high low : Byte) : lowByte (wordOfBytes high low) = low := by
  apply BitVec.eq_of_toNat_eq
  have hl := low.isLt
  rw [lowByte_toNat, wordOfBytes_toNat]
  omega

theorem highByte_eq_ofNat (w : Word) : highByte w = BitVec.ofNat 8 (w.toNat / 256) := by
  rw [← highByte_toNat, BitVec.ofNat_toNat, BitVec.setWidth_eq]

theorem lowByte_eq_ofNat (w : Word) : lowByte w = BitVec.ofNat 8 (w.toNat % 256) := by
  rw [← lowByte_toNat, BitVec.ofNat_toNat, BitVec.setWidth_eq]

/-! ### The canonical form (R40) -/

theorem Memory.wfFrom_cons_iff {low k : Nat} {b : Byte} {rest : Memory} :
    Memory.wfFrom low ((k, b) :: rest) = true ↔
      low ≤ k ∧ k < Config.memBytes ∧ b ≠ unlistedByte ∧ Memory.wfFrom (k + 1) rest = true := by
  simp [Memory.wfFrom, and_assoc]

theorem Memory.get_cons_cell_same (k : Nat) (b : Byte) (rest : Memory) : Memory.get ((k, b) :: rest) k = b := by
  simp [Memory.get]

theorem Memory.get_cons_cell_other {k a : Nat} (b : Byte) (rest : Memory) (h : a ≠ k) :
    Memory.get ((k, b) :: rest) a = rest.get a := by
  simp [Memory.get, Ne.symm h]

/-- The first address a canonical memory lists is the least that reads as something else than an unlisted one. -/
theorem Memory.first_le_of_get_ne {low k a : Nat} {b : Byte} {rest : Memory}
    (h : Memory.wfFrom low ((k, b) :: rest) = true) (ha : Memory.get ((k, b) :: rest) a ≠ unlistedByte) : k ≤ a := by
  obtain ⟨_, hk, hb, hrest⟩ := Memory.wfFrom_cons_iff.mp h
  by_contra hlt
  exact ha (Memory.get_of_lt (Memory.wfFrom_cons_iff.mpr ⟨le_refl k, hk, hb, hrest⟩) (Nat.not_le.mp hlt))

/-- Canonical lists that agree at an address after a first cell at the same address agree there without it. -/
theorem Memory.get_rest_eq {k a : Nat} {b b' : Byte} {rest rest' : Memory}
    (hrest : Memory.wfFrom (k + 1) rest = true) (hrest' : Memory.wfFrom (k + 1) rest' = true)
    (hget : Memory.get ((k, b) :: rest) a = Memory.get ((k, b') :: rest') a) : rest.get a = rest'.get a := by
  by_cases hak : a = k
  · rw [Memory.get_of_lt hrest (by omega), Memory.get_of_lt hrest' (by omega)]
  · rwa [Memory.get_cons_cell_other _ _ hak, Memory.get_cons_cell_other _ _ hak] at hget

/-- Canonical lists that agree at every address have the same first cell and so, in turn, the same rest. -/
theorem Memory.eq_of_get_eq {low : Nat} {m m' : Memory} (h : Memory.wfFrom low m = true)
    (h' : Memory.wfFrom low m' = true) (hget : ∀ a, a < Config.memBytes → m.get a = m'.get a) : m = m' := by
  induction m generalizing low m' with
  | nil =>
    cases m' with
    | nil => rfl
    | cons cell' rest' =>
      obtain ⟨k', b'⟩ := cell'
      obtain ⟨_, hk', hb', _⟩ := Memory.wfFrom_cons_iff.mp h'
      exact absurd ((hget k' hk').trans (Memory.get_cons_cell_same k' b' rest')).symm hb'
  | cons cell rest ih =>
    obtain ⟨k, b⟩ := cell
    obtain ⟨_, hk, hb, hrest⟩ := Memory.wfFrom_cons_iff.mp h
    have hgetk := (hget k hk).symm.trans (Memory.get_cons_cell_same k b rest)
    cases m' with
    | nil => exact absurd hgetk.symm hb
    | cons cell' rest' =>
      obtain ⟨k', b'⟩ := cell'
      obtain ⟨_, hk', hb', hrest'⟩ := Memory.wfFrom_cons_iff.mp h'
      have hgetk' := (hget k' hk').trans (Memory.get_cons_cell_same k' b' rest')
      obtain rfl : k = k' := Nat.le_antisymm (Memory.first_le_of_get_ne h (by rwa [hgetk']))
        (Memory.first_le_of_get_ne h' (by rwa [hgetk]))
      obtain rfl : b' = b := (Memory.get_cons_cell_same k b' rest').symm.trans hgetk
      rw [ih hrest hrest' fun a ha => Memory.get_rest_eq hrest hrest' (hget a ha)]

/-! ### Reading and writing words (R42, R55) -/

theorem Memory.readByte_congr {m m' : Memory} {a : Nat} (h : m'.get a = m.get a) : m'.readByte a = m.readByte a := by
  rw [Memory.readByte, Memory.readByte, h]

/-- A word is written exactly where both its bytes exist, and then as its two bytes. -/
theorem Memory.writeWord_eq_ok {m m' : Memory} {a : Nat} {w : Word} :
    m.writeWord a w = .ok m' ↔
      a + 1 < Config.memBytes ∧ m' = (m.put a (highByte w)).put (a + 1) (lowByte w) := by
  by_cases h : a + 1 < Config.memBytes
  · simp [Memory.writeWord_of_lt h, h, eq_comm]
  · have herror : ∀ m' : Memory, m.writeWord a w ≠ .ok m' := by
      intro m' hw
      unfold Memory.writeWord at hw
      split at hw
      · cases hw
      · simp [Memory.writeByte, h] at hw
    simp [herror, h]

theorem Memory.get_writeWord_high {m m' : Memory} {a : Nat} {w : Word} (hwf : m.wf = true)
    (hw : m.writeWord a w = .ok m') : m'.get a = highByte w := by
  obtain ⟨_, rfl⟩ := Memory.writeWord_eq_ok.mp hw
  rw [Memory.get_put_other _ _ (by omega), Memory.get_put_same hwf]

theorem Memory.get_writeWord_low {m m' : Memory} {a : Nat} {w : Word} (hwf : m.wf = true)
    (hw : m.writeWord a w = .ok m') : m'.get (a + 1) = lowByte w := by
  obtain ⟨ha, rfl⟩ := Memory.writeWord_eq_ok.mp hw
  rw [Memory.get_put_same (Memory.put_wf hwf (by omega))]

theorem Memory.get_writeWord_other {m m' : Memory} {a c : Nat} {w : Word} (hw : m.writeWord a w = .ok m')
    (hc : c ≠ a) (hc' : c ≠ a + 1) : m'.get c = m.get c := by
  obtain ⟨_, rfl⟩ := Memory.writeWord_eq_ok.mp hw
  rw [Memory.get_put_other _ _ hc', Memory.get_put_other _ _ hc]

/-! ### Writing an image (R55, R87) -/

/-- A list of words is written by writing its first word, then the rest two bytes on. -/
theorem Memory.writeWords_cons_eq_ok {m m' : Memory} {a : Nat} {w : Word} {rest : List Word} :
    m.writeWords a (w :: rest) = .ok m' ↔ ∃ m₁, m.writeWord a w = .ok m₁ ∧ m₁.writeWords (a + 2) rest = .ok m' := by
  rw [Memory.writeWords]
  cases m.writeWord a w <;> simp

theorem Memory.exists_writeWords {image : List Word} (m : Memory) {a : Nat}
    (h : a + 2 * image.length ≤ Config.memBytes) : ∃ m', m.writeWords a image = .ok m' := by
  induction image generalizing m a with
  | nil => exact ⟨m, rfl⟩
  | cons w rest ih =>
    rw [List.length_cons] at h
    obtain ⟨m', hm'⟩ := ih ((m.put a (highByte w)).put (a + 1) (lowByte w)) (a := a + 2) (by omega)
    exact ⟨m', Memory.writeWords_cons_eq_ok.mpr ⟨_, Memory.writeWord_of_lt (by omega), hm'⟩⟩

theorem Memory.writeWords_fits {image : List Word} {m m' : Memory} {a : Nat} (ha : a ≤ Config.memBytes)
    (hw : m.writeWords a image = .ok m') : a + 2 * image.length ≤ Config.memBytes := by
  induction image generalizing m a with
  | nil => exact ha
  | cons w rest ih =>
    obtain ⟨m₁, hfirst, hrest⟩ := Memory.writeWords_cons_eq_ok.mp hw
    obtain ⟨hlt, _⟩ := Memory.writeWord_eq_ok.mp hfirst
    have := ih (by omega) hrest
    rw [List.length_cons]
    omega

/-- Outside the words written, memory is left alone. -/
theorem Memory.get_writeWords_other {image : List Word} {m m' : Memory} {a c : Nat}
    (hw : m.writeWords a image = .ok m') (hc : c < a ∨ a + 2 * image.length ≤ c) : m'.get c = m.get c := by
  induction image generalizing m a with
  | nil => cases hw; rfl
  | cons w rest ih =>
    obtain ⟨m₁, hfirst, hrest⟩ := Memory.writeWords_cons_eq_ok.mp hw
    rw [List.length_cons] at hc
    rw [ih hrest (by omega), Memory.get_writeWord_other hfirst (by omega) (by omega)]

/-- Word k of the list has its two bytes 2k bytes on. -/
theorem Memory.get_writeWords {image : List Word} {m m' : Memory} {a k : Nat} {w : Word} (hwf : m.wf = true)
    (hw : m.writeWords a image = .ok m') (hk : image[k]? = some w) :
    m'.get (a + 2 * k) = highByte w ∧ m'.get (a + 2 * k + 1) = lowByte w := by
  induction image generalizing m a k with
  | nil => simp at hk
  | cons v rest ih =>
    obtain ⟨m₁, hfirst, hrest⟩ := Memory.writeWords_cons_eq_ok.mp hw
    cases k with
    | zero =>
      obtain rfl : v = w := by simpa using hk
      exact ⟨(Memory.get_writeWords_other hrest (by omega)).trans (Memory.get_writeWord_high hwf hfirst),
        (Memory.get_writeWords_other hrest (by omega)).trans (Memory.get_writeWord_low hwf hfirst)⟩
    | succ k =>
      have := ih (Memory.writeWord_wf hwf hfirst) hrest (by simpa using hk)
      rwa [show a + 2 + 2 * k = a + 2 * (k + 1) by omega] at this

/-! ### Reset and load (R242) -/

/-- R87: the largest image fills memory, two bytes an instruction. -/
theorem memBytes_eq_two_mul_maxInstructions : Config.memBytes = 2 * Config.maxInstructions := rfl

theorem boot_eq_ok {image : List Word} {s : State} :
    boot image = .ok s ↔ ∃ m, State.reset.mem.writeWords 0 image = .ok m ∧ s = { State.reset with mem := m } := by
  rw [boot]
  cases State.reset.mem.writeWords 0 image <;> simp [eq_comm]

/-- An image boots exactly if it fits memory (R87). -/
theorem exists_boot_iff {image : List Word} : (∃ s, boot image = .ok s) ↔ image.length ≤ Config.maxInstructions := by
  constructor
  · rintro ⟨s, hs⟩
    obtain ⟨m, hm, _⟩ := boot_eq_ok.mp hs
    have := Memory.writeWords_fits (Nat.zero_le _) hm
    rw [memBytes_eq_two_mul_maxInstructions] at this
    omega
  · intro hlen
    obtain ⟨m, hm⟩ := State.reset.mem.exists_writeWords (image := image) (a := 0)
      (by rw [memBytes_eq_two_mul_maxInstructions]; omega)
    exact ⟨_, boot_eq_ok.mpr ⟨m, hm, rfl⟩⟩

theorem boot_eq_reset {image : List Word} {s : State} (h : boot image = .ok s) :
    s = { State.reset with mem := s.mem } := by
  obtain ⟨m, _, rfl⟩ := boot_eq_ok.mp h
  rfl

/-- The bytes of the image's words lie two by two from address 0 on. -/
theorem boot_get {image : List Word} {s : State} {k : Nat} {w : Word} (h : boot image = .ok s)
    (hk : image[k]? = some w) : s.mem.get (2 * k) = highByte w ∧ s.mem.get (2 * k + 1) = lowByte w := by
  obtain ⟨m, hm, rfl⟩ := boot_eq_ok.mp h
  simpa using Memory.get_writeWords (m := State.reset.mem) rfl hm hk

/-- Past the image memory is as after reset. -/
theorem boot_get_past {image : List Word} {s : State} {a : Nat} (h : boot image = .ok s)
    (ha : 2 * image.length ≤ a) : s.mem.get a = unlistedByte := by
  obtain ⟨m, hm, rfl⟩ := boot_eq_ok.mp h
  exact Memory.get_writeWords_other hm (.inr (by omega))

/-- R87: no more instructions are placed than memory holds. -/
theorem assembleLines_length_le {count : Nat} {lines : List (List Char)} {is : List Instr}
    (hcount : count ≤ Config.maxInstructions) (h : assembleLines count lines = .ok is) :
    count + is.length ≤ Config.maxInstructions := by
  induction lines generalizing count is with
  | nil => cases h; exact hcount
  | cons line rest ih =>
    rw [assembleLines] at h
    split at h
    · cases h
    · exact ih hcount h
    · split_ifs at h with hroom
      split at h
      · cases h
      · rename_i is' hrest
        cases h
        have := ih hroom hrest
        rw [List.length_cons]
        omega

theorem assemble_length_le {src : Source} {image : List Word} (h : assemble src = .ok image) :
    image.length ≤ Config.maxInstructions := by
  unfold assemble at h
  split at h
  · cases h
  · rename_i is his
    cases h
    have := assembleLines_length_le (Nat.zero_le _) his
    rw [List.length_map]
    omega

theorem bootSource_of_boot {src : Source} {image : List Word} {s : State} (hsrc : assemble src = .ok image)
    (h : boot image = .ok s) : bootSource src = .ok s := by
  simp [bootSource, hsrc, h]

/-! ### Instructions and memory (R41) -/

/-- No instruction reads data from memory: it does the same with another one. -/
theorem State.execute_exchange_mem (s : State) (i : Instr) (m : Memory) :
    State.execute { s with mem := m } i = { s.execute i with mem := m } := by
  cases i with
  | inp rd =>
    obtain ⟨mem, regs, pc, z, run, inputWait, input, inputTaken, output⟩ := s
    cases input with
    | nil => rfl
    | cons a rest => cases a <;> rfl
  | _ => rfl

/-! ### Values and steps -/

/-- Below the fetch bound both bytes that the fetch reads exist (R43, R44). -/
theorem State.readByte_pc_of_lt {s : State} (hpc : s.pc.toNat < 0xFFFE) :
    s.mem.readByte s.pc.toNat = .ok (s.mem.get s.pc.toNat) ∧
      s.mem.readByte (s.pc.toNat + 1) = .ok (s.mem.get (s.pc.toNat + 1)) := by
  have hlow : s.pc.toNat + 1 < Config.memBytes := by unfold Config.memBytes; omega
  exact ⟨Memory.readByte_of_lt (Nat.lt_of_succ_lt hlow), Memory.readByte_of_lt hlow⟩

theorem truncateInput_eq {v : Int} {r : Word} (h : (r.toNat : Int) = v % 2 ^ 16) : truncateInput v = r := by
  apply BitVec.eq_of_toNat_eq
  rw [truncateInput, BitVec.toNat_ofInt, ← Int.toNat_natCast r.toNat, h]
  rfl

/-- R59: a running core's step answers a next state, at the fetch bound and below it. -/
theorem exists_step_of_running {s : State} (hrun : s.run = .running) : ∃ t, step s = .next t := by
  by_cases hpc : s.pc < fetchLimit
  · exact ⟨_, (step_of_fetch hrun (State.fetch_of_lt hpc)).trans (exec_eq_execute _ s)⟩
  · exact ⟨s.halt .addressOutOfRange, by simp [step, hrun, State.fetch_of_ge hpc]⟩

/-! ### The channels through a run (R56, R57) -/

/-- From `s` to `t` the channels only move on: answers are consumed from the front and counted, values are sent. -/
def State.ChannelsAdvance (s t : State) : Prop :=
  (∃ consumed, s.input = consumed ++ t.input ∧ t.inputTaken = s.inputTaken + consumed.length) ∧
    (∃ sent, t.output = s.output ++ sent)

/-- Channels left alone have moved on by nothing. -/
theorem State.ChannelsAdvance.of_eq {s t : State} (hin : t.input = s.input) (htaken : t.inputTaken = s.inputTaken)
    (hout : t.output = s.output) : s.ChannelsAdvance t :=
  ⟨⟨[], hin.symm, htaken⟩, ⟨[], by rw [hout, List.append_nil]⟩⟩

theorem State.ChannelsAdvance.trans {s t u : State} (hst : s.ChannelsAdvance t) (htu : t.ChannelsAdvance u) :
    s.ChannelsAdvance u := by
  obtain ⟨⟨first, hin, htaken⟩, ⟨sent, hout⟩⟩ := hst
  obtain ⟨⟨later, hin', htaken'⟩, ⟨sent', hout'⟩⟩ := htu
  refine ⟨⟨first ++ later, by rw [hin, hin', List.append_assoc], ?_⟩, ⟨sent ++ sent', ?_⟩⟩
  · rw [htaken', htaken, List.length_append, Nat.add_assoc]
  · rw [hout', hout, List.append_assoc]

/-- INP consumes one answer or none, OUT sends one value, and no other instruction reaches the channels (R211). -/
theorem State.execute_channelsAdvance (s : State) (i : Instr) : s.ChannelsAdvance (s.execute i) := by
  cases i with
  | inp rd =>
    cases hin : s.input with
    | nil => rw [State.execute_inp_of_nil hin]; exact .of_eq rfl rfl rfl
    | cons a rest =>
      rw [State.execute_inp_of_cons hin]
      exact ⟨⟨[a], hin, rfl⟩, ⟨[], (List.append_nil _).symm⟩⟩
  | out rd => exact ⟨⟨[], rfl, rfl⟩, ⟨[s.readReg rd], rfl⟩⟩
  | _ => exact .of_eq rfl rfl rfl

theorem step_channelsAdvance {s t : State} (h : step s = .next t) : s.ChannelsAdvance t := by
  obtain ⟨_, rfl⟩ | ⟨_, w, _, rfl⟩ := step_next_eq h
  · exact .of_eq rfl rfl rfl
  · exact s.execute_channelsAdvance _

/-! PROOFS. The statements about memory, the load and the two channels (spec 20_memory.md). -/

/-- Settles O7: below the bound both bytes exist, and the word is theirs. -/
theorem fetchReadsTwoBytesBigEndian : Obligations.FetchReadsTwoBytesBigEndian := by
  intro s hpc
  obtain ⟨hhigh, hlow⟩ := State.readByte_pc_of_lt hpc
  exact ⟨_, _, _, hhigh, hlow, State.fetch_of_lt hpc, wordOfBytes_toNat _ _⟩

/-- Settles O10: a running core executes or halts, a halted one is refused. -/
theorem stepIsEnabledExactlyWhileRunning : Obligations.StepIsEnabledExactlyWhileRunning := by
  intro s
  refine ⟨⟨exists_step_of_running, fun ⟨_, ht⟩ => (step_next_cases ht).left⟩, fun f => ?_⟩
  cases hrun : s.run with
  | running =>
    obtain ⟨t, ht⟩ := exists_step_of_running hrun
    simp [ht]
  | halted reason => simp [step_of_halted hrun]

/-- Settles O15: memory is exchanged before or after an instruction alike, and kept by each step of a run. -/
theorem instructionsNeitherReadNorWriteMemory : Obligations.InstructionsNeitherReadNorWriteMemory := by
  constructor
  · intro i s
    exact ⟨_, exec_eq_execute i s, s.execute_mem i, fun m => by rw [exec_eq_execute, s.execute_exchange_mem]⟩
  · intro s t hsteps
    exact hsteps.induct (P := fun u => u.mem = s.mem) rfl fun _ _ hu hstep => (step_mem hstep).trans hu

/-- Settles O25, by the two kinds of answer. -/
theorem inpConsumesOneAnswer : Obligations.InpConsumesOneAnswer := by
  refine ⟨fun w hop => ⟨_, rdField_index w, decode_inp (opcodeField_eq_of_toNat hop)⟩, ?_, ?_⟩
  · intro rd s v r rest hin hr
    rw [exec_eq_execute, State.execute_inp_of_cons hin, State.acceptAnswer_value, truncateInput_eq hr,
      State.writeReg_regs]
  · intro rd s rest hin
    rw [exec_eq_execute, State.execute_inp_of_cons hin, State.acceptAnswer_parseFailure]

/-- Settles O33: each step of the run moves the channels on. -/
theorem runsConsumeAnswersInOrder : Obligations.RunsConsumeAnswersInOrder :=
  fun s _ hsteps => hsteps.induct (P := s.ChannelsAdvance) (.of_eq rfl rfl rfl)
    fun _ _ hu hstep => hu.trans (step_channelsAdvance hstep)

/-- Settles O34, by induction on the cells of the one list beside those of the other. -/
theorem canonicalMemoriesThatReadAlikeAreEqual : Obligations.CanonicalMemoriesThatReadAlikeAreEqual := by
  intro m m' hwf hwf' hread
  refine Memory.eq_of_get_eq hwf hwf' fun a ha => ?_
  have := hread a ha
  rw [Memory.readByte_of_lt ha, Memory.readByte_of_lt ha] at this
  exact Except.ok.inj this

/-- Settles O35, by the two bytes of a word. -/
theorem wordsAreStoredBigEndian : Obligations.WordsAreStoredBigEndian := by
  constructor
  · intro m a ha
    exact ⟨_, Memory.readWord_of_lt ha, wordOfBytes_toNat _ _, highByte_wordOfBytes _ _, lowByte_wordOfBytes _ _⟩
  · intro m m' a w hwf hw
    have hhigh := Memory.get_writeWord_high hwf hw
    have hlow := Memory.get_writeWord_low hwf hw
    obtain ⟨ha, _⟩ := Memory.writeWord_eq_ok.mp hw
    refine ⟨by rw [hhigh, highByte_toNat], by rw [hlow, lowByte_toNat], ?_, fun c hc hc' =>
      Memory.readByte_congr (Memory.get_writeWord_other hw hc hc')⟩
    rw [Memory.readWord_of_lt ha, hhigh, hlow, wordOfBytes_highByte_lowByte]

/-- Settles O37: an image boots exactly if it fits, and its words are written one after the other. -/
theorem bootPlacesTheImage : Obligations.BootPlacesTheImage := by
  intro image
  constructor
  · intro hlen
    obtain ⟨s, hs⟩ := exists_boot_iff.mpr hlen
    refine ⟨s, hs, boot_eq_reset hs, fun k w hk => ?_, fun a hpast ha => ?_⟩
    · obtain ⟨hhigh, hlow⟩ := boot_get hs hk
      obtain ⟨hklen, _⟩ := List.getElem?_eq_some_iff.mp hk
      have hfits : 2 * k + 1 < Config.memBytes := by unfold Config.memBytes; omega
      rw [← highByte_eq_ofNat, ← lowByte_eq_ofNat, ← hhigh, ← hlow]
      exact ⟨Memory.readByte_of_lt (Nat.lt_of_succ_lt hfits), Memory.readByte_of_lt hfits⟩
    · rw [Memory.readByte_of_lt ha, boot_get_past hs hpast]
      rfl
  · intro hlong
    cases hboot : boot image with
    | error f => exact ⟨f, rfl⟩
    | ok s => exact absurd (exists_boot_iff.mp ⟨s, hboot⟩) (Nat.not_le.mpr hlong)

/-- Settles O43: an assembled image fits, and the fetch at 2k reads the two bytes the load placed there. -/
theorem assembledSourceBoots : Obligations.AssembledSourceBoots := by
  intro src image hsrc
  obtain ⟨s, hs⟩ := exists_boot_iff.mpr (assemble_length_le hsrc)
  have hreset := boot_eq_reset hs
  refine ⟨s, bootSource_of_boot hsrc hs, by rw [hreset]; rfl, by rw [hreset]; rfl, fun k w hk hlt => ?_⟩
  obtain ⟨hhigh, hlow⟩ := boot_get hs hk
  have hpc : (BitVec.ofNat 16 (2 * k)).toNat = 2 * k := by rw [BitVec.toNat_ofNat]; omega
  have hbound : BitVec.ofNat 16 (2 * k) < fetchLimit := by
    show (BitVec.ofNat 16 (2 * k)).toNat < 0xFFFE
    omega
  rw [State.fetch_of_lt hbound]
  simp only [hpc]
  rw [hhigh, hlow, wordOfBytes_highByte_lowByte]

/-- Settles O6: the step decodes the word of the same two bytes. -/
theorem stepRunsTheDecodedInstruction : Obligations.StepRunsTheDecodedInstruction := by
  intro s i hrun hpc hdec
  rw [decodeBytes_pair] at hdec
  cases hdec
  exact step_of_fetch hrun (State.fetch_of_lt hpc)

/-- Settles O18: two zero bytes are an HLT (R48). -/
theorem zeroedMemoryHalts : Obligations.ZeroedMemoryHalts := by
  intro s hrun hpc hhigh hlow
  obtain ⟨hreadhigh, hreadlow⟩ := State.readByte_pc_of_lt hpc
  rw [hreadhigh] at hhigh
  rw [hreadlow] at hlow
  have hdec : decode (wordOfBytes 0 0) = .hlt := by decide
  rw [step_of_fetch hrun (State.fetch_of_lt hpc), Except.ok.inj hhigh, Except.ok.inj hlow, hdec]
  rfl

/-- Settles O28, by OUT's one event. -/
theorem outSendsTheRegister : Obligations.OutSendsTheRegister :=
  ⟨fun w hop => ⟨_, rdField_index w, decode_out (opcodeField_eq_of_toNat hop)⟩, fun _ _ => rfl⟩

end Sys2Proof.Machine

namespace Sys2Proof

/-! SUPPORT. The fields of an encoded word, the opcode table's rows, the decoder by its opcode (R61, R66). -/

/-! ### The fields of an encoded word (R61, R68) -/

@[simp] theorem opcodeField_encodeWord (op reg data : Nat) :
    opcodeField (encodeWord op reg data) = BitVec.ofNat 4 op := by
  apply BitVec.eq_of_toNat_eq
  rw [opcodeField_toNat, encodeWord_toNat, BitVec.toNat_ofNat]
  omega

@[simp] theorem registerField_encodeWord (op reg data : Nat) :
    registerField (encodeWord op reg data) = BitVec.ofNat 2 reg := by
  apply BitVec.eq_of_toNat_eq
  rw [registerField_toNat, encodeWord_toNat, BitVec.toNat_ofNat]
  omega

@[simp] theorem dataField_encodeWord (op reg data : Nat) :
    dataField (encodeWord op reg data) = BitVec.ofNat 10 data := by
  apply BitVec.eq_of_toNat_eq
  rw [dataField_toNat, encodeWord_toNat, BitVec.toNat_ofNat]
  omega

@[simp] theorem secondField_encodeWord (op reg data : Nat) :
    secondField (encodeWord op reg data) = BitVec.ofNat 2 data := by
  apply BitVec.eq_of_toNat_eq
  rw [secondField_toNat, encodeWord_toNat, BitVec.toNat_ofNat]
  omega

@[simp] theorem rdField_encodeWord (op data : Nat) (rd : Reg) : rdField (encodeWord op rd.index data) = rd := by
  rw [rdField, registerField_encodeWord, Reg.ofBits_index]

@[simp] theorem rsField_encodeWord (op reg : Nat) (rs : Reg) : rsField (encodeWord op reg rs.index) = rs := by
  rw [rsField, secondField_encodeWord, Reg.ofBits_index]

/-- Encoding the three fields of a word gives the word: no bit lies outside them. -/
theorem encodeWord_fields (w : Word) :
    encodeWord (opcodeField w).toNat (registerField w).toNat (dataField w).toNat = w := by
  apply BitVec.eq_of_toNat_eq
  have hw := w.isLt
  rw [encodeWord_toNat, opcodeField_toNat, registerField_toNat, dataField_toNat]
  omega

/-- R61's formula as it is written: the three masked fields fit sixteen bits. -/
theorem encodeWord_toNat_formula (op reg data : Nat) :
    (encodeWord op reg data).toNat = ((op &&& 0xF) <<< 12 ||| (reg &&& 0x3) <<< 10 ||| (data &&& 0x3FF)) := by
  have hop : op &&& 0xF < 2 ^ 4 := Nat.and_lt_two_pow op (by decide)
  have hreg : reg &&& 0x3 < 2 ^ 2 := Nat.and_lt_two_pow reg (by decide)
  have hdata : data &&& 0x3FF < 2 ^ 16 := Nat.and_lt_two_pow data (by decide)
  have hop' : (op &&& 0xF) <<< 12 < 2 ^ 16 := by rw [Nat.shiftLeft_eq]; omega
  have hreg' : (reg &&& 0x3) <<< 10 < 2 ^ 16 := by rw [Nat.shiftLeft_eq]; omega
  exact Nat.mod_eq_of_lt (Nat.or_lt_two_pow (Nat.or_lt_two_pow hop' hreg') hdata)

/-! ### The decoder and the encoder -/

/-- The decoder reads the opcode and the operands back, each from its own field of R61's formula (the lemmas above). -/
theorem decode_encode (i : Instr) : decode (encode i) = i := by
  cases i <;> simp [encode, decode]

theorem decodeBytes_bytesOfWord_append (w : Word) (rest : List Byte) :
    decodeBytes (bytesOfWord w ++ rest) = .ok (decode w, rest) := by
  show Except.ok (decode (wordOfBytes (highByte w) (lowByte w)), rest) = .ok (decode w, rest)
  rw [Machine.wordOfBytes_highByte_lowByte]

theorem opcodeField_encode (i : Instr) : opcodeField (encode i) = i.opcode := by
  rw [← decode_opcode, decode_encode]

theorem decode_reserved4 {w : Word} (h : opcodeField w = 0x4) : decode w = .reserved4 := by
  simp [decode, h]

theorem decode_reservedF {w : Word} (h : opcodeField w = 0xF) : decode w = .reservedF := by
  simp [decode, h]

/-! ### The opcode table (R66) -/

theorem opcodeField_append (op : Opcode) (low : BitVec 12) : opcodeField (op ++ low) = op :=
  BitVec.extractLsb'_append_of_eq (k := 3) (w := 4) rfl

/-- The mask of every row, 0xF000, keeps a word's opcode field alone. -/
theorem and_opcodeMask (w : Word) : w &&& 0xF000 = opcodeField w ++ (0 : BitVec 12) := by
  have hsplit : opcodeField w ++ w.extractLsb' 0 12 = w := BitVec.extractLsb'_append_extractLsb' (w := 4) (len := 12)
  calc w &&& 0xF000
      = (opcodeField w ++ w.extractLsb' 0 12) &&& (BitVec.allOnes 4 ++ (0 : BitVec 12)) := by rw [hsplit]; rfl
    _ = opcodeField w ++ (0 : BitVec 12) := by
      simp only [BitVec.and_append, BitVec.and_allOnes, BitVec.ofNat_eq_ofNat, BitVec.and_zero]

/-- A row selects the words that have its pattern's opcode. -/
theorem matches_iff_opcodeField_eq {row : OpcodeRow} (h : row ∈ opcodeTable) (w : Word) :
    row.matches w = true ↔ opcodeField w = opcodeField row.pattern := by
  have hrow : ∀ row ∈ opcodeTable, row.mask = 0xF000 ∧ row.pattern = opcodeField row.pattern ++ (0 : BitVec 12) := by
    decide
  obtain ⟨hmask, hpattern⟩ := hrow row h
  rw [OpcodeRow.matches, beq_iff_eq, hmask, and_opcodeMask]
  constructor
  · intro heq
    rw [← heq, opcodeField_append]
  · intro heq
    rw [heq, ← hpattern]

/-- No two rows have the same opcode. -/
theorem row_eq_of_opcodeField_eq {row other : OpcodeRow} (h : row ∈ opcodeTable) (hother : other ∈ opcodeTable)
    (heq : opcodeField row.pattern = opcodeField other.pattern) : row = other := by
  have hnodup : (opcodeTable.map fun row => opcodeField row.pattern).Nodup := by decide
  exact List.inj_on_of_nodup_map hnodup h hother heq

theorem Instr.encodingShape (i : Instr) : Laws.EncodingShape.Statement i := by
  cases i with
  | hlt => exact Laws.EncodingShape.hlt
  | ldi rd imm => exact Laws.EncodingShape.ldi rd imm
  | add rd rs => exact Laws.EncodingShape.add rd rs
  | cmp rd rs => exact Laws.EncodingShape.cmp rd rs
  | sub rd rs => exact Laws.EncodingShape.sub rd rs
  | jmp imm => exact Laws.EncodingShape.jmp imm
  | jz imm => exact Laws.EncodingShape.jz imm
  | jnz imm => exact Laws.EncodingShape.jnz imm
  | inp rd => exact Laws.EncodingShape.inp rd
  | grt rd rs => exact Laws.EncodingShape.grt rd rs
  | gre rd rs => exact Laws.EncodingShape.gre rd rs
  | les rd rs => exact Laws.EncodingShape.les rd rs
  | lee rd rs => exact Laws.EncodingShape.lee rd rs
  | out rd => exact Laws.EncodingShape.out rd
  | reserved4 => exact Laws.EncodingShape.reserved4
  | reservedF => exact Laws.EncodingShape.reservedF

/-- The row of an instruction's mnemonic has its opcode. -/
theorem exists_row_of_instr (i : Instr) :
    ∃ row ∈ opcodeTable, row.mnemonic = i.mnemonic ∧ opcodeField row.pattern = i.opcode := by
  obtain ⟨row, hrow, hmnemonic, hmatches, _, _⟩ := i.encodingShape
  refine ⟨row, hrow, hmnemonic, ?_⟩
  rw [← (matches_iff_opcodeField_eq hrow _).mp hmatches, opcodeField_encode]

/-- The mnemonics in the order of their opcodes, as R66 lists them. -/
theorem mnemonic_at_opcode (i : Instr) :
    ["HLT", "LDI", "ADD", "CMP", "reserved_0x4", "SUB", "JMP", "JZ", "JNZ", "INP", "GRT", "GRE", "LES", "LEE", "OUT",
      "reserved_0xF"][i.opcode.toNat]? = some i.mnemonic := by
  cases i <;> rfl

/-! PROOFS. The statements about the encoding (spec 30_encoding.md). -/

/-- Settles O1: the decoder reads the fields that the encoder wrote, from the word and from its two bytes. -/
theorem encodedInstructionDecodesBack : Obligations.EncodedInstructionDecodesBack :=
  fun i rest => ⟨decode_encode i, by rw [encodeBytes, decodeBytes_bytesOfWord_append, decode_encode]⟩

/-- Settles O2, by the fields and the formula as arithmetic. -/
theorem wordFieldsEncodeAndDecodeInverse : Obligations.WordFieldsEncodeAndDecodeInverse := by
  have hmask4 (n : Nat) : n &&& 0xF = n % 16 := Nat.and_two_pow_sub_one_eq_mod n 4
  have hmask2 (n : Nat) : n &&& 0x3 = n % 4 := Nat.and_two_pow_sub_one_eq_mod n 2
  have hmask10 (n : Nat) : n &&& 0x3FF = n % 1024 := Nat.and_two_pow_sub_one_eq_mod n 10
  refine ⟨encodeWord_toNat_formula, fun w => ⟨?_, ?_, ?_⟩, fun op reg data => ⟨?_, ?_, ?_⟩, encodeWord_fields⟩
  · have hw := w.isLt
    rw [opcodeField_toNat, hmask4, Nat.shiftRight_eq_div_pow]
    omega
  · rw [registerField_toNat, hmask2, Nat.shiftRight_eq_div_pow]
  · rw [dataField_toNat, hmask10]
  · rw [opcodeField_encodeWord, BitVec.toNat_ofNat]
  · rw [registerField_encodeWord, BitVec.toNat_ofNat]
  · rw [dataField_encodeWord, BitVec.toNat_ofNat]

/-- Settles O3: a row selects the words of its opcode, and each opcode has one row. -/
theorem everyWordHasOneTableRow : Obligations.EveryWordHasOneTableRow := by
  intro w
  obtain ⟨row, hrow, hmnemonic, hopcode⟩ := exists_row_of_instr (decode w)
  rw [decode_opcode] at hopcode
  refine ⟨⟨row, hrow, (matches_iff_opcodeField_eq hrow w).mpr hopcode.symm, hmnemonic.symm, ?_⟩, ?_⟩
  · intro other hother hmatches
    rw [matches_iff_opcodeField_eq hother, ← hopcode] at hmatches
    exact row_eq_of_opcodeField_eq hother hrow hmatches.symm
  · rw [decode_opcode_toNat]
    exact mnemonic_at_opcode (decode w)

/-- Settles O5, by evaluation of the decoder on the nine words. -/
theorem sampleWordsDecode : Obligations.SampleWordsDecode := by
  unfold Obligations.SampleWordsDecode
  decide

/-- Settles O29: the two reserved opcodes decode to themselves, and their meaning is the halt with D4's advance. -/
theorem reservedOpcodesHaltTheCore : Obligations.ReservedOpcodesHaltTheCore :=
  ⟨fun _ => ⟨fun hop => decode_reserved4 (opcodeField_eq_of_toNat hop),
    fun hop => decode_reservedF (opcodeField_eq_of_toNat hop)⟩,
    fun s => ⟨congrArg Host.Outcome.next (s.unknownOpcode_eq 0x4),
      congrArg Host.Outcome.next (s.unknownOpcode_eq 0xF)⟩⟩

end Sys2Proof

namespace Sys2Proof.Machine

/-! SUPPORT. The assembler: what a line and a list of lines can answer, upper case, tokens, operands (R80 to R87). -/

/-! ### What a line answers (R81, R82) -/

/-- A text of cuts alone has no piece with a character in it. -/
theorem splitAtChars_all_cut {cut : Char → Bool} {text : List Char} (h : ∀ c ∈ text, cut c = true) :
    (splitAtChars cut text).filter (fun t => !t.isEmpty) = [] := by
  induction text with
  | nil => rfl
  | cons c rest ih =>
    obtain ⟨hc, hrest⟩ := List.forall_mem_cons.mp h
    simp [splitAtChars, hc, ih hrest]

/-- White space is white space still once commas are blanks. -/
theorem isSpace_commaToSpace {c : Char} (h : isSpace c = true) : isSpace (commaToSpace c) = true := by
  unfold commaToSpace
  split
  · rfl
  · exact h

theorem lineTokens_of_isBlankLine {line : List Char} (h : isBlankLine line = true) : lineTokens line = [] := by
  refine splitAtChars_all_cut fun c hc => ?_
  obtain ⟨d, hd, rfl⟩ := List.mem_map.mp hc
  exact isSpace_commaToSpace (List.all_eq_true.mp h d hd)

theorem isBlankLine_of_lineTokens {line : List Char} {token : Token} {tokens : List Token}
    (h : lineTokens line = token :: tokens) : isBlankLine line = false := by
  rw [Bool.eq_false_iff]
  intro hblank
  rw [lineTokens_of_isBlankLine hblank] at h
  cases h

theorem assembleLine_eq_ok_none_iff {line : List Char} : assembleLine line = .ok none ↔ isBlankLine line = true := by
  unfold assembleLine
  split
  next hblank => simp [hblank]
  next hblank => (repeat' split) <;> simp [hblank]

theorem assembleLine_eq_ok_some_iff {line : List Char} {i : Instr} :
    assembleLine line = .ok (some i) ↔ ∃ mnemonic tokens shape os, lineTokens line = mnemonic :: tokens ∧
      shapeOf mnemonic = some shape ∧ parseOperands tokens = .ok os ∧ shape.instr os = .ok i := by
  refine ⟨assembleLine_cases, ?_⟩
  rintro ⟨mnemonic, tokens, shape, os, htokens, hshape, hos, hinstr⟩
  simp [assembleLine, isBlankLine_of_lineTokens htokens, htokens, hshape, hos, hinstr]

theorem assembleLine_unknown {line : List Char} {token : Token} {tokens : List Token}
    (htokens : lineTokens line = token :: tokens) (hshape : shapeOf token = none) :
    assembleLine line = .error (.unknownInstruction token) := by
  simp [assembleLine, isBlankLine_of_lineTokens htokens, htokens, hshape]

/-! ### What a list of lines answers (R82, R87, R88) -/

theorem assembleLines_cons_eq_ok_iff {count : Nat} {line : List Char} {rest : List (List Char)} {is : List Instr} :
    assembleLines count (line :: rest) = .ok is ↔
      (assembleLine line = .ok none ∧ assembleLines count rest = .ok is) ∨
      ∃ i is', assembleLine line = .ok (some i) ∧ count < Config.maxInstructions ∧
        assembleLines (count + 1) rest = .ok is' ∧ is = i :: is' := by
  rw [assembleLines]
  split
  next e he => simp [he]
  next he => simp [he]
  next i he =>
    by_cases hroom : count < Config.maxInstructions
    · cases hrest : assembleLines (count + 1) rest <;> simp [he, hroom, eq_comm]
    · simp [he, hroom]

/-- The first error ends the pass (R82): where the lines before assemble, it is the one answered. -/
theorem assembleLines_append_error {count : Nat} {before after : List (List Char)} {line : List Char}
    {earlier : List Instr} {e : AsmError} (hbefore : assembleLines count before = .ok earlier)
    (hline : assembleLine line = .error e) : assembleLines count (before ++ line :: after) = .error e := by
  induction before generalizing count earlier with
  | nil => simp [assembleLines, hline]
  | cons first before ih =>
    obtain ⟨hfirst, hrest⟩ | ⟨i, is, hfirst, hroom, hrest, _⟩ := assembleLines_cons_eq_ok_iff.mp hbefore
    · simp [assembleLines, hfirst, ih hrest]
    · simp [assembleLines, hfirst, hroom, ih hrest]

theorem assemble_eq_ok_iff {src : Source} {image : List Word} :
    assemble src = .ok image ↔ ∃ is, assembleLines 0 (sourceLines src) = .ok is ∧ is.map encode = image := by
  unfold assemble assembleInstrs
  cases assembleLines 0 (sourceLines src) <;> simp

theorem assemble_of_error {src : Source} {e : AsmError} (h : assembleLines 0 (sourceLines src) = .error e) :
    assemble src = .error e ∧ bootSource src = .error e := by
  have hasm : assemble src = .error e := by simp [assemble, assembleInstrs, h]
  exact ⟨hasm, by simp [bootSource, hasm]⟩

/-! ### Mnemonics and what they make (R81, R85, R89) -/

theorem shapeOf_eq_none_iff {token : Token} :
    shapeOf token = none ↔ token.map Char.toUpper ∉ mnemonicShapes.map Prod.fst := by
  rw [shapeOf, List.lookup_eq_none_iff, List.mem_map]
  simp only [bne_iff_ne, not_exists, not_and, ne_comm, ne_eq]

/-- The shape makes assigned instructions alone, whatever the operands. -/
def Shape.MakesAssigned : Shape → Prop
  | .n i => i.wf = true
  | .ri make => ∀ rd imm, (make rd imm).wf = true
  | .rr make => ∀ rd rs, (make rd rs).wf = true
  | .j make => ∀ imm, (make imm).wf = true
  | .r make => ∀ rd, (make rd).wf = true

theorem shapeOf_makesAssigned {mnemonic : Token} {shape : Shape} (h : shapeOf mnemonic = some shape) :
    shape.MakesAssigned := by
  have hall : ∀ entry ∈ mnemonicShapes, entry.2.MakesAssigned := by
    simp [mnemonicShapes, Shape.MakesAssigned, Instr.wf]
  exact hall _ (mem_of_lookup h)

theorem Shape.MakesAssigned.wf {shape : Shape} {os : List Operand} {i : Instr} (hshape : shape.MakesAssigned)
    (h : shape.instr os = .ok i) : i.wf = true := by
  unfold Shape.instr at h
  split at h <;> cases h
  next => exact hshape
  next make rd v => exact hshape rd (immOfInt v)
  next make rd rs => exact hshape rd rs
  next make rd v => exact hshape rd (registerOfInt v)
  next make v => exact hshape (immOfInt v)
  next make rd => exact hshape rd

theorem assembleLine_wf {line : List Char} {i : Instr} (h : assembleLine line = .ok (some i)) : i.wf = true := by
  obtain ⟨_, _, shape, os, _, hshape, _, hinstr⟩ := assembleLine_cases h
  exact (shapeOf_makesAssigned hshape).wf hinstr

theorem assembleLines_wf {count : Nat} {lines : List (List Char)} {is : List Instr}
    (h : assembleLines count lines = .ok is) : ∀ i ∈ is, i.wf = true := by
  induction lines generalizing count is with
  | nil => cases h; simp
  | cons line rest ih =>
    obtain ⟨_, hrest⟩ | ⟨i, is', hline, _, hrest, rfl⟩ := assembleLines_cons_eq_ok_iff.mp h
    · exact ih hrest
    · exact List.forall_mem_cons.mpr ⟨assembleLine_wf hline, ih hrest⟩

/-! ### Upper case (R81, R83) -/

/-- What relates each character to itself, and each small letter to its capital, relates each to its upper case. -/
theorem toUpper_rel {P : Char → Char → Prop} (same : ∀ c, P c c)
    (small : ∀ n < 26, P (Char.ofNat (97 + n)) (Char.ofNat (97 + n)).toUpper) (c : Char) : P c c.toUpper := by
  obtain h | ⟨hlow, hhigh⟩ := toUpper_eq_self_or_small c
  · rw [h]
    exact same c
  · have := small (c.toNat - 97) (by omega)
    rwa [Nat.add_sub_cancel' hlow, Char.ofNat_toNat] at this

theorem isSpace_toUpper (c : Char) : isSpace c.toUpper = isSpace c :=
  toUpper_rel (P := fun c d => isSpace d = isSpace c) (fun _ => rfl) (by decide) c

theorem isDigit_toUpper (c : Char) : c.toUpper.isDigit = c.isDigit :=
  toUpper_rel (P := fun c d => d.isDigit = c.isDigit) (fun _ => rfl) (by decide) c

theorem toUpper_beq_newline (c : Char) : (c.toUpper == '\n') = (c == '\n') :=
  toUpper_rel (P := fun c d => (d == '\n') = (c == '\n')) (fun _ => rfl) (by decide) c

theorem toUpper_bne_semicolon (c : Char) : (c.toUpper != ';') = (c != ';') :=
  toUpper_rel (P := fun c d => (d != ';') = (c != ';')) (fun _ => rfl) (by decide) c

theorem toUpper_eq_comma_iff (c : Char) : c.toUpper = ',' ↔ c = ',' :=
  toUpper_rel (P := fun c d => d = ',' ↔ c = ',') (fun _ => .rfl) (by decide) c

theorem commaToSpace_toUpper (c : Char) : commaToSpace c.toUpper = (commaToSpace c).toUpper := by
  by_cases hc : c = ','
  · rw [hc]
    rfl
  · simp [commaToSpace, toUpper_eq_comma_iff, hc]

theorem toUpper_eq_registerLetter_iff (c : Char) : (c.toUpper = 'R' ∨ c.toUpper = 'r') ↔ (c = 'R' ∨ c = 'r') :=
  toUpper_rel (P := fun c d => (d = 'R' ∨ d = 'r') ↔ (c = 'R' ∨ c = 'r')) (fun _ => .rfl) (by decide) c

theorem toUpper_eq_minus_iff (c : Char) : c.toUpper = '-' ↔ c = '-' :=
  toUpper_rel (P := fun c d => d = '-' ↔ c = '-') (fun _ => .rfl) (by decide) c

theorem toUpper_of_isDigit {c : Char} (h : c.isDigit = true) : c.toUpper = c :=
  toUpper_rel (P := fun c d => c.isDigit = true → d = c) (fun _ _ => rfl) (by decide) c h

theorem stripComment_map_toUpper (line : List Char) :
    stripComment (line.map Char.toUpper) = (stripComment line).map Char.toUpper := by
  simp only [stripComment, List.takeWhile_map, Function.comp_def, toUpper_bne_semicolon]

theorem isBlankLine_map_toUpper (line : List Char) : isBlankLine (line.map Char.toUpper) = isBlankLine line := by
  simp only [isBlankLine, stripComment_map_toUpper, List.all_map, Function.comp_def, isSpace_toUpper]

theorem lineTokens_map_toUpper (line : List Char) :
    lineTokens (line.map Char.toUpper) = (lineTokens line).map (List.map Char.toUpper) := by
  have hcomma : ((stripComment line).map Char.toUpper).map commaToSpace =
      ((stripComment line).map commaToSpace).map Char.toUpper := by
    simp only [List.map_map, Function.comp_def, commaToSpace_toUpper]
  simp only [lineTokens, stripComment_map_toUpper, hcomma, splitAtChars_map _ _ isSpace_toUpper, List.filter_map,
    Function.comp_def, List.isEmpty_map]

theorem sourceLines_map_toUpper (src : Source) :
    sourceLines (src.map Char.toUpper) = (sourceLines src).map (List.map Char.toUpper) :=
  splitAtChars_map _ _ toUpper_beq_newline src

theorem shapeOf_map_toUpper (mnemonic : Token) : shapeOf (mnemonic.map Char.toUpper) = shapeOf mnemonic := by
  simp only [shapeOf, List.map_map, Function.comp_def, Char.toUpper_toUpper_eq_toUpper]

/-- Digits have no case, and no letter's capital is a digit. -/
theorem digitsValue_map_toUpper (ds : List Char) : digitsValue (ds.map Char.toUpper) = digitsValue ds := by
  by_cases hall : ds.all Char.isDigit = true
  · have hsame : ds.map Char.toUpper = ds :=
      (List.map_congr_left fun c hc => toUpper_of_isDigit (List.all_eq_true.mp hall c hc)).trans (List.map_id ds)
    rw [hsame]
  · have hall' : (ds.map Char.toUpper).all Char.isDigit = ds.all Char.isDigit := by
      simp only [List.all_map, Function.comp_def, isDigit_toUpper]
    simp [digitsValue, hall', hall]

theorem parseOperand_map_toUpper (t : Token) : parseOperand (t.map Char.toUpper) = parseOperand t := by
  cases t with
  | nil => rfl
  | cons c rest =>
    have hwhole : digitsValue (c.toUpper :: rest.map Char.toUpper) = digitsValue (c :: rest) :=
      digitsValue_map_toUpper (c :: rest)
    simp only [List.map_cons, parseOperand, toUpper_eq_registerLetter_iff, toUpper_eq_minus_iff, hwhole,
      digitsValue_map_toUpper]

theorem parseOperands_map_toUpper (ts : List Token) :
    parseOperands (ts.map (List.map Char.toUpper)) = parseOperands ts := by
  induction ts with
  | nil => rfl
  | cons t rest ih => simp only [List.map_cons, parseOperands, parseOperand_map_toUpper, ih]

theorem assembleLine_map_toUpper_eq_ok_iff {line : List Char} {o : Option Instr} :
    assembleLine (line.map Char.toUpper) = .ok o ↔ assembleLine line = .ok o := by
  cases o with
  | none => rw [assembleLine_eq_ok_none_iff, assembleLine_eq_ok_none_iff, isBlankLine_map_toUpper]
  | some i =>
    rw [assembleLine_eq_ok_some_iff, assembleLine_eq_ok_some_iff, lineTokens_map_toUpper]
    cases lineTokens line <;> simp [shapeOf_map_toUpper, parseOperands_map_toUpper]

theorem assembleLines_map_toUpper_eq_ok_iff {count : Nat} {lines : List (List Char)} {is : List Instr} :
    assembleLines count (lines.map (List.map Char.toUpper)) = .ok is ↔ assembleLines count lines = .ok is := by
  induction lines generalizing count is with
  | nil => rfl
  | cons line rest ih =>
    simp only [List.map_cons, assembleLines_cons_eq_ok_iff, assembleLine_map_toUpper_eq_ok_iff, ih]

/-! ### Operand tokens (R83, R84) -/

theorem ne_of_isDigit {c d : Char} (hc : c.isDigit = true) (hd : d.isDigit = false) : c ≠ d := by
  rintro rfl
  exact absurd hc (Bool.eq_false_iff.mp hd)

theorem isDigit_of_mem_digits {n : Nat} {c : Char} (h : c ∈ Nat.toDigits 10 n) : c.isDigit = true :=
  Nat.isDigit_of_mem_toDigits (by decide) (by decide) h

/-- A number's decimal digits: a first one and those after it. -/
theorem exists_toDigits_eq_cons (n : Nat) :
    ∃ c rest, Nat.toDigits 10 n = c :: rest ∧ c.isDigit = true := by
  obtain ⟨c, rest, h⟩ := List.exists_cons_of_ne_nil (Nat.toDigits_ne_nil (n := n) (b := 10))
  exact ⟨c, rest, h, isDigit_of_mem_digits (h ▸ List.mem_cons_self)⟩

theorem parseOperand_digits (n : Nat) : parseOperand (Nat.toDigits 10 n) = .ok (.num n) := by
  obtain ⟨c, rest, hdigits, hc⟩ := exists_toDigits_eq_cons n
  have hvalue := digitsValue_toDigits n
  rw [hdigits] at hvalue ⊢
  simp [parseOperand, ne_of_isDigit hc, hvalue]

theorem parseOperand_register {c : Char} (hc : c = 'R' ∨ c = 'r') (n : Nat) :
    parseOperand (c :: Nat.toDigits 10 n) = .ok (.reg (registerOfNumber n)) := by
  simp only [parseOperand, hc, digitsValue_toDigits, if_true]

theorem parseOperand_negative (n : Nat) : parseOperand ('-' :: Nat.toDigits 10 n) = .ok (.num (-(n : Int))) := by
  simp [parseOperand, digitsValue_toDigits]

theorem registerOfNumber_index (n : Nat) : (registerOfNumber n).index = n % 4 := by
  rw [registerOfNumber, Reg.index_ofBits, BitVec.toNat_ofNat]

theorem registerOfInt_index (v : Int) : ((registerOfInt v).index : Int) = v % 4 := by
  rw [registerOfInt, Reg.index_ofBits, BitVec.toNat_ofInt]
  omega

theorem immOfInt_toNat (v : Int) : ((immOfInt v).toNat : Int) = v % 1024 := by
  rw [immOfInt, BitVec.toNat_ofInt]
  omega

/-! ### The tokens of a written line (R81) -/

/-- The characters that a token is made of: no comment sign, no comma, no white space. -/
def isTokenChar (c : Char) : Bool := c != ';' && c != ',' && !isSpace c

/-- A token: one or more characters that end neither it nor the line's text. -/
structure IsToken (t : Token) : Prop where
  ne_nil : t ≠ []
  chars : t.all isTokenChar = true

theorem IsToken.of_cons {c : Char} {rest : List Char} (h : (c :: rest).all isTokenChar = true) : IsToken (c :: rest) :=
  ⟨List.cons_ne_nil c rest, h⟩

theorem isTokenChar_iff {c : Char} : isTokenChar c = true ↔ c ≠ ';' ∧ c ≠ ',' ∧ isSpace c = false := by
  simp [isTokenChar, and_assoc]

theorem IsToken.stripComment_append {t : Token} (ht : IsToken t) (rest : List Char) :
    stripComment (t ++ rest) = t ++ stripComment rest :=
  List.takeWhile_append_of_pos fun c hc =>
    bne_iff_ne.mpr (isTokenChar_iff.mp (List.all_eq_true.mp ht.chars c hc)).left

theorem IsToken.map_commaToSpace {t : Token} (ht : IsToken t) : t.map commaToSpace = t := by
  refine (List.map_congr_left fun c hc => ?_).trans (List.map_id t)
  obtain ⟨_, hcomma, _⟩ := isTokenChar_iff.mp (List.all_eq_true.mp ht.chars c hc)
  exact if_neg hcomma

theorem IsToken.not_isSpace {t : Token} (ht : IsToken t) : ∀ c ∈ t, isSpace c = false := by
  intro c hc
  obtain ⟨_, _, hspace⟩ := isTokenChar_iff.mp (List.all_eq_true.mp ht.chars c hc)
  exact hspace

/-- A line of one token. -/
theorem lineTokens_token {t : Token} (ht : IsToken t) : lineTokens t = [t] := by
  have hstrip : stripComment t = t := by simpa [stripComment] using ht.stripComment_append []
  simp [lineTokens, hstrip, ht.map_commaToSpace, splitAtChars_whole _ _ ht.not_isSpace, ht.ne_nil]

/-- A token ends at a blank or a comma, and the tokens of the rest follow. -/
theorem lineTokens_token_append {t : Token} (ht : IsToken t) {c : Char} (hc : c = ' ' ∨ c = ',') (rest : List Char) :
    lineTokens (t ++ c :: rest) = t :: lineTokens rest := by
  have hstrip : stripComment (c :: rest) = c :: stripComment rest := by
    rcases hc with rfl | rfl <;> rfl
  have hspace : isSpace (commaToSpace c) = true := by
    rcases hc with rfl | rfl <;> rfl
  simp [lineTokens, ht.stripComment_append, hstrip, ht.map_commaToSpace,
    splitAtChars_append _ _ _ _ ht.not_isSpace hspace, ht.ne_nil]

theorem lineTokens_blank (rest : List Char) : lineTokens (' ' :: rest) = lineTokens rest := rfl

theorem isToken_digits (n : Nat) : IsToken (Nat.toDigits 10 n) := by
  refine ⟨Nat.toDigits_ne_nil, List.all_eq_true.mpr fun c hc => ?_⟩
  simp [isTokenChar, isSpace, ne_of_isDigit (isDigit_of_mem_digits hc)]

theorem isToken_register (r : Reg) : IsToken (Reg.source r) := by
  cases r <;> exact .of_cons rfl

theorem parseOperand_regSource (r : Reg) : parseOperand (Reg.source r) = .ok (.reg r) := by
  rw [Reg.source, parseOperand_register (.inl rfl), registerOfNumber, Reg.ofBits_index]

theorem immOfInt_of_toNat (imm : Imm) : immOfInt imm.toNat = imm := by
  rw [immOfInt, BitVec.ofInt_natCast, BitVec.ofNat_toNat, BitVec.setWidth_eq]

/-! ### The lines of R85's table -/

theorem lineTokens_operand {m a : Token} (hm : IsToken m) (ha : IsToken a) :
    lineTokens (m ++ [' '] ++ a) = [m, a] := by
  rw [List.append_assoc, List.singleton_append, lineTokens_token_append hm (.inl rfl), lineTokens_token ha]

theorem lineTokens_operands {m a b : Token} (hm : IsToken m) (ha : IsToken a) (hb : IsToken b) :
    lineTokens (m ++ [' '] ++ a ++ [',', ' '] ++ b) = [m, a, b] := by
  simp only [List.append_assoc, List.cons_append, List.nil_append]
  rw [lineTokens_token_append hm (.inl rfl), lineTokens_token_append ha (.inr rfl), lineTokens_blank,
    lineTokens_token hb]

theorem assembleLine_n {m : Token} {i : Instr} (hm : IsToken m) (hshape : shapeOf m = some (.n i)) :
    assembleLine m = .ok (some i) :=
  assembleLine_eq_ok_some_iff.mpr ⟨m, [], .n i, [], lineTokens_token hm, hshape, rfl, rfl⟩

theorem assembleLine_r {m : Token} {make : Reg → Instr} (hm : IsToken m) (hshape : shapeOf m = some (.r make))
    (rd : Reg) : assembleLine (m ++ [' '] ++ Reg.source rd) = .ok (some (make rd)) :=
  assembleLine_eq_ok_some_iff.mpr ⟨m, _, .r make, [.reg rd], lineTokens_operand hm (isToken_register rd), hshape,
    by simp [parseOperands, parseOperand_regSource], rfl⟩

theorem assembleLine_j {m : Token} {make : Imm → Instr} (hm : IsToken m) (hshape : shapeOf m = some (.j make))
    (imm : Imm) : assembleLine (m ++ [' '] ++ Nat.toDigits 10 imm.toNat) = .ok (some (make imm)) :=
  assembleLine_eq_ok_some_iff.mpr ⟨m, _, .j make, [.num imm.toNat], lineTokens_operand hm (isToken_digits _), hshape,
    by simp [parseOperands, parseOperand_digits], by rw [Shape.instr, immOfInt_of_toNat]⟩

theorem assembleLine_rr {m : Token} {make : Reg → Reg → Instr} (hm : IsToken m) (hshape : shapeOf m = some (.rr make))
    (rd rs : Reg) :
    assembleLine (m ++ [' '] ++ Reg.source rd ++ [',', ' '] ++ Reg.source rs) = .ok (some (make rd rs)) :=
  assembleLine_eq_ok_some_iff.mpr ⟨m, _, .rr make, [.reg rd, .reg rs],
    lineTokens_operands hm (isToken_register rd) (isToken_register rs), hshape,
    by simp [parseOperands, parseOperand_regSource], rfl⟩

theorem assembleLine_ri {m : Token} {make : Reg → Imm → Instr} (hm : IsToken m) (hshape : shapeOf m = some (.ri make))
    (rd : Reg) (imm : Imm) :
    assembleLine (m ++ [' '] ++ Reg.source rd ++ [',', ' '] ++ Nat.toDigits 10 imm.toNat) = .ok (some (make rd imm)) :=
  assembleLine_eq_ok_some_iff.mpr ⟨m, _, .ri make, [.reg rd, .num imm.toNat],
    lineTokens_operands hm (isToken_register rd) (isToken_digits _), hshape,
    by simp [parseOperands, parseOperand_regSource, parseOperand_digits], by rw [Shape.instr, immOfInt_of_toNat]⟩

theorem assembleLine_source {i : Instr} (h : i.wf = true) : assembleLine (Instr.source i) = .ok (some i) := by
  cases i with
  | hlt => exact assembleLine_n (.of_cons rfl) rfl
  | ldi rd imm => exact assembleLine_ri (m := ['L', 'D', 'I']) (.of_cons rfl) rfl rd imm
  | add rd rs => exact assembleLine_rr (m := ['A', 'D', 'D']) (.of_cons rfl) rfl rd rs
  | cmp rd rs => exact assembleLine_rr (m := ['C', 'M', 'P']) (.of_cons rfl) rfl rd rs
  | sub rd rs => exact assembleLine_rr (m := ['S', 'U', 'B']) (.of_cons rfl) rfl rd rs
  | jmp imm => exact assembleLine_j (m := ['J', 'M', 'P']) (.of_cons rfl) rfl imm
  | jz imm => exact assembleLine_j (m := ['J', 'Z']) (.of_cons rfl) rfl imm
  | jnz imm => exact assembleLine_j (m := ['J', 'N', 'Z']) (.of_cons rfl) rfl imm
  | inp rd => exact assembleLine_r (m := ['I', 'N', 'P']) (.of_cons rfl) rfl rd
  | grt rd rs => exact assembleLine_rr (m := ['G', 'R', 'T']) (.of_cons rfl) rfl rd rs
  | gre rd rs => exact assembleLine_rr (m := ['G', 'R', 'E']) (.of_cons rfl) rfl rd rs
  | les rd rs => exact assembleLine_rr (m := ['L', 'E', 'S']) (.of_cons rfl) rfl rd rs
  | lee rd rs => exact assembleLine_rr (m := ['L', 'E', 'E']) (.of_cons rfl) rfl rd rs
  | out rd => exact assembleLine_r (m := ['O', 'U', 'T']) (.of_cons rfl) rfl rd
  | reserved4 | reservedF => cases h

/-! ### A source of written lines (R80) -/

theorem newline_notMem_digits (n : Nat) : '\n' ∉ Nat.toDigits 10 n :=
  fun h => ne_of_isDigit (isDigit_of_mem_digits h) rfl rfl

theorem newline_notMem_source (i : Instr) : '\n' ∉ Instr.source i := by
  cases i <;> simp [Instr.source, Reg.source, newline_notMem_digits]

theorem sourceLines_sourceOf (is : List Instr) : sourceLines (sourceOf is) = is.map Instr.source ++ [[]] := by
  induction is with
  | nil => rfl
  | cons i rest ih =>
    have hline : ∀ c ∈ Instr.source i, (c == '\n') = false := by
      intro c hc
      rw [beq_eq_false_iff_ne]
      rintro rfl
      exact newline_notMem_source i hc
    have hsource : sourceOf (i :: rest) = Instr.source i ++ '\n' :: sourceOf rest := by simp [sourceOf]
    rw [hsource, sourceLines, splitAtChars_append _ _ _ _ hline rfl]
    exact congrArg (Instr.source i :: ·) ih

theorem assembleLines_sources {count : Nat} {is : List Instr} (hwf : ∀ i ∈ is, i.wf = true)
    (hroom : count + is.length ≤ Config.maxInstructions) :
    assembleLines count (is.map Instr.source ++ [[]]) = .ok is := by
  induction is generalizing count with
  | nil => rfl
  | cons i rest ih =>
    obtain ⟨hi, hrest⟩ := List.forall_mem_cons.mp hwf
    rw [List.length_cons] at hroom
    exact assembleLines_cons_eq_ok_iff.mpr
      (.inr ⟨i, rest, assembleLine_source hi, by omega, ih hrest (by omega), rfl⟩)

/-! PROOFS. The statements about the assembler (spec 30_encoding.md R80 to R89). -/

/-- Settles O39: each line assembles to its instruction, and the text ends in a blank line. -/
theorem writtenInstructionsAssembleToTheirWords : Obligations.WrittenInstructionsAssembleToTheirWords := by
  intro is hwf hlen
  refine assemble_eq_ok_iff.mpr ⟨is, ?_, rfl⟩
  rw [sourceLines_sourceOf]
  exact assembleLines_sources hwf (by rw [Nat.zero_add]; exact hlen)

/-- Settles O38, by the digits of a number and the masks as remainders. -/
theorem operandTokensAreReadAndMasked : Obligations.OperandTokensAreReadAndMasked :=
  ⟨fun n => ⟨_, registerOfNumber_index n, parseOperand_register (.inl rfl) n, parseOperand_register (.inr rfl) n⟩,
    fun n => ⟨parseOperand_digits n, parseOperand_negative n⟩, fun v => ⟨immOfInt_toNat v, registerOfInt_index v⟩⟩

/-- Settles O40: a mnemonic's shape makes assigned instructions alone, and their words decode back. -/
theorem assembledImagesAreCanonical : Obligations.AssembledImagesAreCanonical := by
  intro src image h
  refine ⟨assemble_length_le h, fun w hw => ?_⟩
  obtain ⟨is, his, rfl⟩ := assemble_eq_ok_iff.mp h
  obtain ⟨i, hi, rfl⟩ := List.mem_map.mp hw
  rw [decode_encode]
  exact ⟨assembleLines_wf his i hi, rfl⟩

/-- Settles O41: line by line, a source and the same one in capitals have the same instructions. -/
theorem sourceCaseDoesNotMatter : Obligations.SourceCaseDoesNotMatter := by
  intro src image
  simp only [assemble_eq_ok_iff, sourceLines_map_toUpper, assembleLines_map_toUpper_eq_ok_iff]

/-- Settles O42: the line's mnemonic has no shape, and its error ends the pass. -/
theorem unknownMnemonicFailsTheLoad : Obligations.UnknownMnemonicFailsTheLoad := by
  intro src before after line earlier token operands hlines hbefore _ htokens hmnemonic
  have hlisted : token.map Char.toUpper ∉ mnemonicShapes.map Prod.fst := hmnemonic
  refine assemble_of_error ?_
  rw [hlines]
  exact assembleLines_append_error hbefore (assembleLine_unknown htokens (shapeOf_eq_none_iff.mpr hlisted))

end Sys2Proof.Machine

namespace Sys2Proof

/-! SUPPORT. The fields and the opcodes of LDI, ADD and SUB (spec 30_encoding.md R61, R64). -/

theorem rsField_index (w : Word) : (rsField w).index = w.toNat % 4 := by
  rw [rsField, Reg.index_ofBits, secondField_toNat]

theorem dataField_eq_ofNat (w : Word) : dataField w = BitVec.ofNat 10 (w.toNat % 1024) := by
  rw [← dataField_toNat, BitVec.ofNat_toNat, BitVec.setWidth_eq]

theorem decode_ldi {w : Word} (h : opcodeField w = 0x1) : decode w = .ldi (rdField w) (dataField w) := by
  simp [decode, h]

theorem decode_add {w : Word} (h : opcodeField w = 0x2) : decode w = .add (rdField w) (rsField w) := by
  simp [decode, h]

theorem decode_sub {w : Word} (h : opcodeField w = 0x5) : decode w = .sub (rdField w) (rsField w) := by
  simp [decode, h]

end Sys2Proof

namespace Sys2Proof.Machine

/-! SUPPORT. The effect of LDI, ADD and SUB, with their results as numbers (spec 40_arith.md R100 to R103). -/

/-- `Z` of ADD and SUB as a fact about the result's number (R103). -/
theorem zeroFlag_eq_decide (r : Word) : zeroFlag r = decide (r.toNat = 0) :=
  Bool.eq_iff_iff.mpr ((zeroFlag_iff r).trans decide_eq_true_iff.symm)

theorem exec_ldi (rd : Reg) (imm : Imm) (s : State) :
    exec (.ldi rd imm) s = .next { s with regs := s.regs.set rd (immValue imm), pc := s.pc + 2 } := rfl

theorem exec_add (rd rs : Reg) (s : State) :
    exec (.add rd rs) s = .next (s.finishArith rd (s.regs.get rd + s.regs.get rs)) := rfl

theorem exec_sub (rd rs : Reg) (s : State) :
    exec (.sub rd rs) s = .next (s.finishArith rd (s.regs.get rd - s.regs.get rs)) := rfl

theorem add_eq_of_toNat {a b r : Word} (h : r.toNat = (a.toNat + b.toNat) % 2 ^ 16) : a + b = r :=
  BitVec.eq_of_toNat_eq ((BitVec.toNat_add a b).trans h.symm)

/-- The integers' difference modulo 2^16 is the words' difference: a borrow wraps (R102). -/
theorem sub_eq_of_toNat {a b r : Word} (h : (r.toNat : Int) = (a.toNat - b.toNat : Int) % 2 ^ 16) : a - b = r := by
  apply BitVec.eq_of_toNat_eq
  rw [BitVec.toNat_sub]
  have := b.isLt
  omega

/-! PROOFS. The statements about LDI, ADD and SUB (spec 40_arith.md). -/

/-- Settles O20: the sum as a word is the sum modulo 2^16. -/
theorem addWrapsAndSetsZ : Obligations.AddWrapsAndSetsZ := by
  refine ⟨fun w hop => ⟨_, _, rdField_index w, rsField_index w, decode_add (opcodeField_eq_of_toNat hop)⟩, ?_⟩
  intro rd rs s r hr
  rw [exec_add, add_eq_of_toNat hr, State.finishArith_eq, zeroFlag_eq_decide]

/-- Settles O21: the difference as a word is the difference modulo 2^16, and it is 0 for equal operands alone. -/
theorem subWrapsAndSetsZ : Obligations.SubWrapsAndSetsZ := by
  refine ⟨fun w hop => ⟨_, _, rdField_index w, rsField_index w, decode_sub (opcodeField_eq_of_toNat hop)⟩, ?_⟩
  intro rd rs s r hr
  have hsub := sub_eq_of_toNat hr
  constructor
  · rw [exec_sub, hsub, State.finishArith_eq, zeroFlag_eq_decide]
  · rw [← hsub]
    exact (BitVec.toNat_inj (y := 0)).trans sub_eq_zero

/-- Settles O19: the immediate keeps its number at 16 bits. -/
theorem ldiLoadsTheImmediate : Obligations.LdiLoadsTheImmediate := by
  constructor
  · intro w hop
    rw [← dataField_eq_ofNat]
    exact ⟨_, rdField_index w, decode_ldi (opcodeField_eq_of_toNat hop)⟩
  · intro rd imm s r hr
    have himm : immValue imm = r := BitVec.eq_of_toNat_eq ((immValue_toNat imm).trans hr.symm)
    rw [exec_ldi, himm]

end Sys2Proof.Machine

namespace Sys2Proof

/-! SUPPORT. The opcodes of the five compares (spec 30_encoding.md R66). -/

theorem decode_cmp {w : Word} (h : opcodeField w = 0x3) : decode w = .cmp (rdField w) (rsField w) := by
  simp [decode, h]

theorem decode_grt {w : Word} (h : opcodeField w = 0xA) : decode w = .grt (rdField w) (rsField w) := by
  simp [decode, h]

theorem decode_gre {w : Word} (h : opcodeField w = 0xB) : decode w = .gre (rdField w) (rsField w) := by
  simp [decode, h]

theorem decode_les {w : Word} (h : opcodeField w = 0xC) : decode w = .les (rdField w) (rsField w) := by
  simp [decode, h]

theorem decode_lee {w : Word} (h : opcodeField w = 0xD) : decode w = .lee (rdField w) (rsField w) := by
  simp [decode, h]

end Sys2Proof

namespace Sys2Proof.Machine

/-! SUPPORT. The effect of the five compares, on the registers as unsigned numbers (spec 41_compare.md R120 to R125). -/

/-- `Z` of CMP as a fact about the operands' numbers (R121). -/
theorem compareEq_eq_decide (a b : Word) : compareEq a b = decide (a.toNat = b.toNat) :=
  Bool.eq_iff_iff.mpr (beq_iff_eq.trans (BitVec.toNat_inj.symm.trans decide_eq_true_iff.symm))

theorem exec_cmp (rd rs : Reg) (s : State) :
    exec (.cmp rd rs) s = .next (s.finishCompare (decide ((s.regs.get rd).toNat = (s.regs.get rs).toNat))) := by
  rw [← compareEq_eq_decide]
  rfl

theorem exec_grt (rd rs : Reg) (s : State) :
    exec (.grt rd rs) s = .next (s.finishCompare (decide ((s.regs.get rd).toNat > (s.regs.get rs).toNat))) := rfl

theorem exec_gre (rd rs : Reg) (s : State) :
    exec (.gre rd rs) s = .next (s.finishCompare (decide ((s.regs.get rd).toNat ≥ (s.regs.get rs).toNat))) := rfl

theorem exec_les (rd rs : Reg) (s : State) :
    exec (.les rd rs) s = .next (s.finishCompare (decide ((s.regs.get rd).toNat < (s.regs.get rs).toNat))) := rfl

theorem exec_lee (rd rs : Reg) (s : State) :
    exec (.lee rd rs) s = .next (s.finishCompare (decide ((s.regs.get rd).toNat ≤ (s.regs.get rs).toNat))) := rfl

/-! PROOFS. The statement about the five compares (spec 41_compare.md). -/

/-- Settles O22: each opcode decodes to its compare of the two fields, and each compare ends in the shared write of Z. -/
theorem comparesWriteZAlone : Obligations.ComparesWriteZAlone := by
  constructor
  · intro w op hmem hop
    refine ⟨_, _, rdField_index w, rsField_index w, ?_⟩
    simp only [List.mem_cons, List.not_mem_nil, or_false] at hmem
    rcases hmem with rfl | rfl | rfl | rfl | rfl
    · exact decode_cmp (opcodeField_eq_of_toNat hop)
    · exact decode_grt (opcodeField_eq_of_toNat hop)
    · exact decode_gre (opcodeField_eq_of_toNat hop)
    · exact decode_les (opcodeField_eq_of_toNat hop)
    · exact decode_lee (opcodeField_eq_of_toNat hop)
  · rintro rd rs s _ _ rfl rfl
    simp only [← State.finishCompare_eq]
    exact ⟨exec_cmp rd rs s, exec_grt rd rs s, exec_gre rd rs s, exec_les rd rs s, exec_lee rd rs s⟩

end Sys2Proof.Machine

namespace Sys2Proof.Machine

/-! SUPPORT. The effect of the three jumps: the pc alone (spec 42_control.md R140 to R143). -/

theorem exec_jmp (imm : Imm) (s : State) : exec (.jmp imm) s = .next { s with pc := jumpTarget imm } := rfl

/-- R72: the end of a conditional jump's step, its one write the pc. -/
theorem State.sequence_jumpIf (s : State) (taken : Bool) (imm : Imm) :
    s.sequence (jumpIf taken imm) = { s with pc := if taken then jumpTarget imm else s.pc + 2 } := by
  rw [State.sequence, Sequel.nextPc_jumpIf]

theorem exec_jz (imm : Imm) (s : State) :
    exec (.jz imm) s = .next { s with pc := if s.z then jumpTarget imm else s.pc + 2 } := by
  rw [exec_eq_execute, State.execute_jz, State.sequence_jumpIf]

/-- R143: the branches of JZ the other way round. -/
theorem exec_jnz (imm : Imm) (s : State) :
    exec (.jnz imm) s = .next { s with pc := if s.z then s.pc + 2 else jumpTarget imm } := by
  rw [exec_eq_execute, State.execute_jnz, State.sequence_jumpIf]
  cases s.z <;> rfl

/-! PROOFS. The statement about the three jumps (spec 42_control.md). -/

/-- Settles O23: each opcode decodes to its jump of the data field, and the target is the one word of the immediate's
number. -/
theorem jumpsSetPcAlone : Obligations.JumpsSetPcAlone := by
  constructor
  · intro w imm himm
    obtain rfl : imm = dataField w := BitVec.eq_of_toNat_eq (himm.trans (dataField_toNat w).symm)
    exact ⟨fun hop => decode_jmp (opcodeField_eq_of_toNat hop), fun hop => decode_jz (opcodeField_eq_of_toNat hop),
      fun hop => decode_jnz (opcodeField_eq_of_toNat hop)⟩
  · intro imm s t ht
    obtain rfl : t = jumpTarget imm := BitVec.eq_of_toNat_eq (ht.trans (jumpTarget_toNat imm).symm)
    exact ⟨exec_jmp imm s, exec_jz imm s, exec_jnz imm s⟩

end Sys2Proof.Machine

namespace Sys2Proof

/-! SUPPORT. The decoder at HLT's opcode (spec 30_encoding.md R66). -/

/-- A word of HLT's opcode decodes to HLT, whatever its low twelve bits (D5). -/
theorem decode_hlt {w : Word} (h : opcodeField w = 0x0) : decode w = .hlt := by
  simp [decode, h]

end Sys2Proof

namespace Sys2Proof.Machine

/-! SUPPORT. The effect of HLT: the halt, then the sequencer's advance (spec 43_system_io.md R160). -/

theorem exec_hlt (s : State) : exec .hlt s = .next { s with run := .halted .hlt, pc := s.pc + 2 } := rfl

/-! PROOFS. The statement about HLT (spec 43_system_io.md). -/

/-- Settles O24: HLT decodes by its opcode alone, and the state it leaves is halted, so its step is refused. -/
theorem hltHaltsTheCore : Obligations.HltHaltsTheCore :=
  ⟨fun _ hop => decode_hlt (opcodeField_eq_of_toNat hop), fun s => ⟨exec_hlt s, step_of_halted rfl⟩⟩

end Sys2Proof.Machine

namespace Sys2Proof

/-! SUPPORT. Which instructions halt the core, and with what reason (spec 60_exceptions.md R201). -/

/-- The reason an instruction halts the core with; none for one that does not (R73, R160). -/
def Instr.haltReason : Instr → Option HaltReason
  | .hlt => some .hlt
  | .reserved4 => some (.unknownOpcode 0x4)
  | .reservedF => some (.unknownOpcode 0xF)
  | _ => none

/-- An instruction's opcode decides its halt reason: the rows of R201's table that speak of opcodes. -/
theorem Instr.haltReason_eq_some_iff (i : Instr) (reason : HaltReason) :
    i.haltReason = some reason ↔
      (i.opcode.toNat = 0x0 ∧ reason = .hlt) ∨ (i.opcode.toNat = 0x4 ∧ reason = .unknownOpcode 0x4) ∨
        (i.opcode.toNat = 0xF ∧ reason = .unknownOpcode 0xF) := by
  cases i with
  | hlt | reserved4 | reservedF => simp [Instr.haltReason, Instr.opcode, eq_comm]
  | _ => simp [Instr.haltReason, Instr.opcode]

end Sys2Proof

namespace Sys2Proof.Machine

/-! SUPPORT. The effect of an instruction that halts and of one that does not; the channels exchanged under an
instruction (spec 60_exceptions.md R200, R205, R211). -/

/-- A halting instruction changes run, and pc by the advance, and nothing else. -/
theorem State.execute_of_haltReason_some (s : State) {i : Instr} {reason : HaltReason}
    (h : i.haltReason = some reason) : s.execute i = { s with run := .halted reason, pc := s.pc + 2 } := by
  cases i with
  | hlt | reserved4 | reservedF => cases h; rfl
  | _ => cases h

/-- An instruction without a halt reason leaves run alone, by the frame of every instruction. -/
theorem State.execute_run_of_haltReason_none (s : State) {i : Instr} (h : i.haltReason = none) :
    (s.execute i).run = s.run := by
  by_contra hchanged
  obtain rfl | rfl | rfl := State.execute_run_ne hchanged <;> cases h

/-- A running core is halted by an instruction exactly with the instruction's reason. -/
theorem State.execute_run_eq_halted_iff {s : State} (hrun : s.run = .running) (i : Instr) (reason : HaltReason) :
    (s.execute i).run = .halted reason ↔ i.haltReason = some reason := by
  cases h : i.haltReason with
  | none => simp [s.execute_run_of_haltReason_none h, hrun]
  | some reason' => simp [s.execute_of_haltReason_some h]

/-- An instruction that does not leave a running core running halts it, and so changes only run and pc. -/
theorem State.execute_eq_of_run_ne_running {s : State} (hrun : s.run = .running) {i : Instr}
    (h : (s.execute i).run ≠ .running) : s.execute i = { s with run := (s.execute i).run, pc := s.pc + 2 } := by
  cases hreason : i.haltReason with
  | none => exact absurd ((s.execute_run_of_haltReason_none hreason).trans hrun) h
  | some reason => rw [s.execute_of_haltReason_some hreason]

/-- An instruction other than INP and OUT neither reads nor writes the channels: it does the same with others. -/
theorem State.execute_exchange_channels (s : State) {i : Instr} (h : ∀ rd, i ≠ .inp rd ∧ i ≠ .out rd) (wait : Bool)
    (answers : List InputAnswer) (taken : Nat) (sent : List Word) :
    State.execute { s with inputWait := wait, input := answers, inputTaken := taken, output := sent } i =
      { s.execute i with inputWait := wait, input := answers, inputTaken := taken, output := sent } := by
  cases i with
  | inp rd => exact absurd rfl (h rd).left
  | out rd => exact absurd rfl (h rd).right
  | _ => rfl

/-! PROOFS. The statements about the halts and the boundary to the channels (spec 60_exceptions.md). -/

/-- Settles O17: a step halts at the fetch bound, or it executes the fetched word, whose opcode decides the halt. -/
theorem haltsForExactlyTheListedReasons : Obligations.HaltsForExactlyTheListedReasons := by
  intro s t hstep
  obtain ⟨hrun, _⟩ := step_next_cases hstep
  obtain ⟨hpc, rfl⟩ | ⟨hpc, w, hw, rfl⟩ := step_next_eq hstep
  · have hbound : 0xFFFE ≤ s.pc.toNat := Nat.not_lt.mp hpc
    refine ⟨fun reason => ?_, fun _ => by rw [if_pos hbound]; rfl⟩
    simp [hbound, Nat.not_lt.mpr hbound, eq_comm]
  · have hbelow : s.pc.toNat < 0xFFFE := hpc
    refine ⟨fun reason => ?_, fun hhalted => ?_⟩
    · rw [State.execute_run_eq_halted_iff hrun, Instr.haltReason_eq_some_iff, ← decode_opcode_toNat]
      simp [hbelow, Nat.not_le.mpr hbelow, hw]
    · rw [if_neg (Nat.not_le.mpr hbelow)]
      exact State.execute_eq_of_run_ne_running hrun hhalted

/-- Settles O32: the channels are exchanged before or after such an instruction alike. -/
theorem onlyInpAndOutReachTheChannels : Obligations.OnlyInpAndOutReachTheChannels :=
  fun i s wait answers taken sent hi =>
    ⟨s.execute i, exec_eq_execute i s, by rw [exec_eq_execute, s.execute_exchange_channels hi]⟩

end Sys2Proof.Machine

namespace Sys2Proof.Machine

/-! SUPPORT. The model's invariant: a state that waits, a load and a step (spec 10_state.md R31, 70_reset_and_hazards.md). -/

/-- Whether a core is at an INP depends on run and on what a fetch reads (R31, R43). -/
theorem State.atInp_congr {s t : State} (hrun : t.run = s.run) (hmem : t.mem = s.mem) (hpc : t.pc = s.pc)
    (h : s.atInp) : t.atInp := by
  obtain ⟨hrunning, w, rd, hw, hdec⟩ := h
  exact ⟨hrun.trans hrunning, w, rd, (State.fetch_congr hmem hpc).trans hw, hdec⟩

/-- A core at an INP is below the fetch bound. -/
theorem State.atInp.pc_lt {s : State} (h : s.atInp) : s.pc < fetchLimit := by
  obtain ⟨_, w, _, hw, _⟩ := h
  by_contra hpc
  rw [State.fetch_of_ge hpc] at hw
  cases hw

/-- The invariant of a core that does not wait is its memory's canonical form. -/
theorem State.Inv.of_not_waiting {s : State} (hmem : s.mem.wf = true) (hwait : s.inputWait = false) : s.Inv :=
  ⟨hmem, fun h => absurd (hwait.symm.trans h) Bool.false_ne_true⟩

/-- After an instruction a core waits only at an INP without an answer, or if it waited before an instruction other
than INP. -/
theorem State.inputWait_of_execute {s : State} {i : Instr} (h : (s.execute i).inputWait = true) :
    (∃ rd, i = .inp rd ∧ s.execute i = s.awaitInput) ∨ ((∀ rd, i ≠ .inp rd) ∧ s.inputWait = true) := by
  by_cases hi : ∃ rd, i = .inp rd
  · obtain ⟨rd, rfl⟩ := hi
    cases hin : s.input with
    | nil => exact .inl ⟨rd, rfl, State.execute_inp_of_nil hin rd⟩
    | cons a rest =>
      rw [State.execute_inp_of_cons hin] at h
      cases h
  · have hne : ∀ rd, i ≠ .inp rd := not_exists.mp hi
    obtain ⟨_, _, hkept⟩ := s.execute_input_of_ne_inp hne
    exact .inr ⟨hne, hkept.symm.trans h⟩

/-- From a state that meets the invariant, a step ends waiting only by the wait of an INP without an answer: where the
core waited before, the invariant says that the step's instruction is that INP. -/
theorem State.Inv.eq_awaitInput_of_step {s t : State} (hinv : s.Inv) (hstep : step s = .next t)
    (hwait : t.inputWait = true) : s.atInp ∧ t = s.awaitInput := by
  obtain ⟨hrun, _⟩ := step_next_cases hstep
  obtain ⟨hpc, rfl⟩ | ⟨_, w, hw, rfl⟩ := step_next_eq hstep
  · exact absurd (hinv.waitsAtInp hwait).pc_lt hpc
  · obtain ⟨rd, hdec, hawait⟩ | ⟨hne, hwaited⟩ := State.inputWait_of_execute hwait
    · exact ⟨⟨hrun, w, rd, hw, hdec⟩, hawait⟩
    · obtain ⟨_, v, rd, hv, hdec⟩ := hinv.waitsAtInp hwaited
      obtain rfl : w = v := Fetched.word.inj (hw.symm.trans hv)
      exact absurd hdec (hne rd)

theorem State.Inv.of_step {s t : State} (hinv : s.Inv) (hstep : step s = .next t) : t.Inv where
  memCanonical := by rw [step_mem hstep, hinv.memCanonical]
  waitsAtInp hwait := by
    obtain ⟨hinp, rfl⟩ := hinv.eq_awaitInput_of_step hstep hwait
    exact State.atInp_congr rfl rfl rfl hinp

theorem State.Inv.answer {s : State} (hinv : s.Inv) (a : InputAnswer) : (s.answer a).Inv where
  memCanonical := hinv.memCanonical
  waitsAtInp hwait := State.atInp_congr rfl rfl rfl (hinv.waitsAtInp hwait)

/-! PROOFS. The statements about the model's invariant and about the fetch bound. -/

/-- Settles O12: a step keeps memory, and a core that waits after it is still at the INP that made it wait. -/
theorem everyStepKeepsInv : Obligations.EveryStepKeepsInv :=
  fun _ hinv => ⟨fun _ hstep => hinv.of_step hstep, hinv.answer⟩

/-- Settles O11: reset and load leave memory canonical and the core not waiting. -/
theorem invHoldsBeforeTheFirstStep : Obligations.InvHoldsBeforeTheFirstStep := by
  refine ⟨.of_not_waiting rfl rfl, fun image s hboot => .of_not_waiting (boot_wf hboot) ?_⟩
  rw [boot_eq_reset hboot]
  rfl

/-- Settles O8: a running core takes a step, and at the bound the halt is the one step there is. -/
theorem fetchBoundHaltsTheCore : Obligations.FetchBoundHaltsTheCore := by
  intro s hrun hpc
  obtain ⟨t, hstep⟩ := exists_step_of_running hrun
  obtain ⟨_, rfl⟩ | ⟨hbelow, _⟩ := step_next_eq hstep
  · exact hstep
  · exact absurd hbelow (Nat.not_lt.mpr hpc)

end Sys2Proof.Machine

namespace Sys2Proof

/-! SUPPORT. The fields that a mask keeps, and the fields that each format reads (spec 30_encoding.md R62 to R65, R67). -/

/-! ### Fields of a masked word (R61) -/

/-- A mask that has every bit of a field keeps the field. -/
theorem extractLsb'_and_of_eq_allOnes {mask : Word} {start len : Nat}
    (h : mask.extractLsb' start len = BitVec.allOnes len) (w : Word) :
    (w &&& mask).extractLsb' start len = w.extractLsb' start len := by
  rw [BitVec.extractLsb'_and, h, BitVec.and_allOnes]

theorem opcodeField_and {mask : Word} (h : opcodeField mask = BitVec.allOnes 4) (w : Word) :
    opcodeField (w &&& mask) = opcodeField w :=
  extractLsb'_and_of_eq_allOnes h w

theorem rdField_and {mask : Word} (h : registerField mask = BitVec.allOnes 2) (w : Word) :
    rdField (w &&& mask) = rdField w :=
  congrArg Reg.ofBits (extractLsb'_and_of_eq_allOnes h w)

theorem rsField_and {mask : Word} (h : secondField mask = BitVec.allOnes 2) (w : Word) :
    rsField (w &&& mask) = rsField w :=
  congrArg Reg.ofBits (extractLsb'_and_of_eq_allOnes h w)

theorem dataField_and {mask : Word} (h : dataField mask = BitVec.allOnes 10) (w : Word) :
    dataField (w &&& mask) = dataField w :=
  extractLsb'_and_of_eq_allOnes h w

theorem opcodeField_mem {w : Word} {ops : List Opcode} (h : w.toNat / 4096 ∈ ops.map BitVec.toNat) :
    opcodeField w ∈ ops := by
  obtain ⟨op, hop, heq⟩ := List.mem_map.mp h
  rwa [opcodeField_eq_of_toNat heq.symm]

/-! ### The fields each format reads (R62) -/

/-- Formats N and reserved: the opcode alone. -/
theorem decode_congr_n {v w : Word} (hmem : opcodeField w ∈ [0x0, 0x4, 0xF]) (hop : opcodeField v = opcodeField w) :
    decode v = decode w := by
  simp only [List.mem_cons, List.not_mem_nil, or_false] at hmem
  rcases hmem with h | h | h
  · rw [decode_hlt h, decode_hlt (hop.trans h)]
  · rw [decode_reserved4 h, decode_reserved4 (hop.trans h)]
  · rw [decode_reservedF h, decode_reservedF (hop.trans h)]

/-- Format RR: the opcode and both registers. -/
theorem decode_congr_rr {v w : Word} (hmem : opcodeField w ∈ [0x2, 0x3, 0x5, 0xA, 0xB, 0xC, 0xD])
    (hop : opcodeField v = opcodeField w) (hrd : rdField v = rdField w) (hrs : rsField v = rsField w) :
    decode v = decode w := by
  simp only [List.mem_cons, List.not_mem_nil, or_false] at hmem
  rcases hmem with h | h | h | h | h | h | h
  · rw [decode_add h, decode_add (hop.trans h), hrd, hrs]
  · rw [decode_cmp h, decode_cmp (hop.trans h), hrd, hrs]
  · rw [decode_sub h, decode_sub (hop.trans h), hrd, hrs]
  · rw [decode_grt h, decode_grt (hop.trans h), hrd, hrs]
  · rw [decode_gre h, decode_gre (hop.trans h), hrd, hrs]
  · rw [decode_les h, decode_les (hop.trans h), hrd, hrs]
  · rw [decode_lee h, decode_lee (hop.trans h), hrd, hrs]

/-- Format J: the opcode and the data field. -/
theorem decode_congr_j {v w : Word} (hmem : opcodeField w ∈ [0x6, 0x7, 0x8]) (hop : opcodeField v = opcodeField w)
    (hdata : dataField v = dataField w) : decode v = decode w := by
  simp only [List.mem_cons, List.not_mem_nil, or_false] at hmem
  rcases hmem with h | h | h
  · rw [decode_jmp h, decode_jmp (hop.trans h), hdata]
  · rw [decode_jz h, decode_jz (hop.trans h), hdata]
  · rw [decode_jnz h, decode_jnz (hop.trans h), hdata]

/-- Format R: the opcode and the register field. -/
theorem decode_congr_r {v w : Word} (hmem : opcodeField w ∈ [0x9, 0xE]) (hop : opcodeField v = opcodeField w)
    (hrd : rdField v = rdField w) : decode v = decode w := by
  simp only [List.mem_cons, List.not_mem_nil, or_false] at hmem
  rcases hmem with h | h
  · rw [decode_inp h, decode_inp (hop.trans h), hrd]
  · rw [decode_out h, decode_out (hop.trans h), hrd]

/-! PROOFS. The statement about the unused bits of a word (spec 30_encoding.md). -/

/-- Settles O4: each mask keeps the fields that its formats read. -/
theorem unusedBitsDoNotMatter : Obligations.UnusedBitsDoNotMatter := fun w =>
  ⟨fun h => (decode_congr_n (opcodeField_mem h) (opcodeField_and rfl w)).symm,
    fun h => (decode_congr_rr (opcodeField_mem h) (opcodeField_and rfl w) (rdField_and rfl w) (rsField_and rfl w)).symm,
    fun h => (decode_congr_j (opcodeField_mem h) (opcodeField_and rfl w) (dataField_and rfl w)).symm,
    fun h => (decode_congr_r (opcodeField_mem h) (opcodeField_and rfl w) (rdField_and rfl w)).symm⟩

end Sys2Proof
